-- ==== Sys2Proof/Word.lean ====
section
/-! DEFINITION. The word types of the SDP-1C (spec 00_scope.md R6, R9 to R11): bytes and addresses. -/

namespace Sys2Proof

/-- An 8-bit value: a register, a memory byte, a port (R9). -/
abbrev Byte := BitVec 8

/-- A 16-bit memory address or program counter value (R26, R50). -/
abbrev Addr := BitVec 16

end Sys2Proof
end

