-- ==== Sys2Proof/Syntax.lean ====
section
/-! DEFINITION. The instructions of the SDP-1C as syntax: one constructor per row of spec/opcode_table.json, the
operands in assembly order (30_encoding.md R95, R98). -/

namespace Sys2Proof

/-- The eight general purpose registers A to H (10_state.md R20). -/
inductive Reg where
  | a | b | c | d | e | f | g | h
deriving DecidableEq, Repr, Inhabited

/-- A port number: the input ports and the output ports are both numbered 1 and 2 (10_state.md R37). -/
inductive Port where
  | p1 | p2
deriving DecidableEq, Repr, Inhabited

/-- An Address operand as it stands in the instruction: `a1` is the byte at the lower memory address, `a2` the next
(30_encoding.md R87). Which of them is the low half is ADDR_ORDER's to say, when the instruction runs (R88). -/
structure AddrOperand where
  a1 : Byte
  a2 : Byte
deriving DecidableEq, Repr, Inhabited

/-- The 39 instructions of the ISA table (30_encoding.md R95), in the table's order. A constructor's arguments are the
instruction's operands in assembly order. -/
inductive Instr where
  | ldi (v : Byte) (r : Reg)
  | adi (v : Byte) (r : Reg)
  | sbi (v : Byte) (r : Reg)
  | sub (rd : Reg) (rs : Reg)
  | add (rd : Reg) (rs : Reg)
  | xor (rd : Reg) (rs : Reg)
  | nand (rd : Reg) (rs : Reg)
  | jmp (t : AddrOperand)
  | jc (t : AddrOperand)
  | jnc (t : AddrOperand)
  | jz (t : AddrOperand)
  | jnz (t : AddrOperand)
  | jm (t : AddrOperand)
  | jp (t : AddrOperand)
  | call (t : AddrOperand)
  | rts
  | phi (v : Byte)
  | push (r : Reg)
  | pull (r : Reg)
  /-- The two registers as written; which is the source is MOVE_DIR's to say (43_move_load_store.md R170). -/
  | move (r1 : Reg) (r2 : Reg)
  | load (t : AddrOperand) (r : Reg)
  | store (r : Reg) (t : AddrOperand)
  | dcr (r : Reg)
  | inc (r : Reg)
  | hlt
  | nop
  | ror (r : Reg)
  | rol (r : Reg)
  | rri (v : Byte) (r : Reg)
  | rli (v : Byte) (r : Reg)
  | sfr (r : Reg)
  | sfl (r : Reg)
  | sli (v : Byte) (r : Reg)
  | sri (v : Byte) (r : Reg)
  /-- `in`, which is a word of Lean. -/
  | in_ (p : Port) (r : Reg)
  | out (r : Reg) (p : Port)
  | xri (v : Byte) (r : Reg)
  | nandi (v : Byte) (r : Reg)
  | sgr
deriving DecidableEq, Repr, Inhabited

/-- The ten formats (30_encoding.md R82, table T-R82). -/
inductive Format where
  | n | r | v | vr | rr | a | ar | ra | pr | rp
deriving DecidableEq, Repr

/-- What one operand byte holds (30_encoding.md R84 to R87). -/
inductive OperandByte where
  | value | reg | port | addr
deriving DecidableEq, Repr

/-- The operand bytes of a format, in ascending position from byte 1 (table T-R82). -/
def Format.operandBytes : Format → List OperandByte
  | .n => []
  | .r => [.reg]
  | .v => [.value]
  | .vr => [.value, .reg]
  | .rr => [.reg, .reg]
  | .a => [.addr, .addr]
  | .ar => [.addr, .addr, .reg]
  | .ra => [.reg, .addr, .addr]
  | .pr => [.port, .reg]
  | .rp => [.reg, .port]

/-- The length of an instruction of the format in bytes: one opcode byte and its operand bytes (R81). -/
def Format.length (f : Format) : Nat := f.operandBytes.length + 1

end Sys2Proof
end

