-- ==== Sys2Proof/Config.lean ====
section
/-! DEFINITION. The parameters of 00_scope.md R8 (table T-R8), the free values, and what an unlisted memory byte reads
as. The parameters that are choices are fields of the structure `Config`, which a machine carries and never changes;
the values that nothing fixes are opaque constants, so that no proof can lean on what they are. -/

namespace Sys2Proof

/-- ADDR_ORDER: which byte of an Address operand is the low one (30_encoding.md R88). -/
inductive AddrOrder where
  | lowFirst | highFirst
deriving DecidableEq, Repr, Inhabited

/-- SUB_CARRY: what CF is after a subtraction (40_ldi_and_alu_two_operand.md R112). The spec leaves it OPEN; `chip` is
the setting the chip has, one of the two, not known which (`Config.chipBorrows`; log 6). -/
inductive SubCarry where
  | borrow | notBorrow | chip
deriving DecidableEq, Repr, Inhabited

/-- LOGIC_CARRY: what CF is after XOR and NAND (40_ldi_and_alu_two_operand.md R112). -/
inductive LogicCarry where
  | cleared | unchanged | any
deriving DecidableEq, Repr, Inhabited

/-- SHIFT_CARRY: what CF is after a rotate or shift (92_eei_decisions.md D13). -/
inductive ShiftCarry where
  | bitOut | unchanged | any
deriving DecidableEq, Repr, Inhabited

/-- ROTATE_KIND: what a rotate rotates (45_rotates_and_shifts.md R190). -/
inductive RotateKind where
  | circular8 | throughCarry9
deriving DecidableEq, Repr, Inhabited

/-- SHIFT_FILL: the bit that enters on a right shift (45_rotates_and_shifts.md R190). -/
inductive ShiftFill where
  | zero | signCopy
deriving DecidableEq, Repr, Inhabited

/-- ALU_ALIAS: a two-operand ALU instruction with destination B (40_ldi_and_alu_two_operand.md R114). -/
inductive AluAlias where
  | sequence | refuse
deriving DecidableEq, Repr, Inhabited

/-- MOVE_DIR: which operand of `move` is the source (43_move_load_store.md R170). -/
inductive MoveDir where
  | srcFirst | dstFirst
deriving DecidableEq, Repr, Inhabited

/-- ACK_SCOPE: which `out` instructions pulse the acknowledge line (46_in_out.md R211). -/
inductive AckScope where
  | anyOut | port1Only
deriving DecidableEq, Repr, Inhabited

/-- The parameters of table T-R8 that are choices of the chip. `glPinMap` is GL_PIN_MAP: entry k is the pin that
latched bit k drives, pin n written as n - 1 (60_exceptions.md R266). -/
structure Config where
  addrOrder  : AddrOrder
  subCarry   : SubCarry
  logicCarry : LogicCarry
  shiftCarry : ShiftCarry
  rotateKind : RotateKind
  shiftFill  : ShiftFill
  aluAlias   : AluAlias
  moveDir    : MoveDir
  ackScope   : AckScope
  glPinMap   : Vector (Fin 16) 16
deriving DecidableEq, Repr

/-- SUB_CARRY has no default (92_eei_decisions.md D11): whether the chip's setting is Borrow. Nothing tells. DESIGN
CHOICE, safe (log 6). -/
opaque Config.chipBorrows : Bool

/-- The default GL_PIN_MAP: pin k+1 carries GL[k] (60_exceptions.md R266). -/
def Config.straightPins : Vector (Fin 16) 16 := #v[0, 1, 2, 3, 4, 5, 6, 7, 8, 9, 10, 11, 12, 13, 14, 15]

/-- The parameters at the spec's defaults (table T-R8), with SUB_CARRY left unknown and LOGIC_CARRY at the recommended
Any. DESIGN CHOICE, unsafe (logs 5, 8, 9, 10, 12, 13). -/
def Config.standard : Config where
  addrOrder := .lowFirst
  subCarry := .chip
  logicCarry := .any
  shiftCarry := .bitOut
  rotateKind := .circular8
  shiftFill := .zero
  aluAlias := .sequence
  moveDir := .srcFirst
  ackScope := .anyOut
  glPinMap := Config.straightPins

/-- INPUT_ORACLE (46_in_out.md R210): the byte the environment presents on a port at the n-th draw. DESIGN CHOICE,
safe: no value is fixed (log 14). -/
opaque Config.inputOracle : Port → Nat → Byte

/-- PUSH8_HIGH (42_stack_phi_push_pull.md R160): the upper byte of the entry written at the n-th draw. DESIGN CHOICE,
safe (log 11). -/
opaque Config.push8High : Nat → Byte

/-- The carry after a logic instruction under LOGIC_CARRY = Any, at the n-th draw (R112). DESIGN CHOICE, safe (log 7). -/
opaque Config.logicCarryDraw : Nat → Bool

/-- The carry after a rotate or shift under SHIFT_CARRY = Any, at the n-th draw (D13). DESIGN CHOICE, safe (log 8). -/
opaque Config.shiftCarryDraw : Nat → Bool

/-- What a memory byte that nothing has written and no image lists reads as. DESIGN CHOICE, unsafe: the spec gives no
value (10_state.md R44, R45; log 2). -/
def Config.unwrittenByte : Byte := 0x00

end Sys2Proof
end

