-- ==== Sys2Proof/WellFormed.lean ====
section
/-! DEFINITION. The checks. A term of `Instr` names registers and ports by constructors, so every term of it is an
instruction; what can be ill-formed is a sequence of bytes (30_encoding.md R85, R86, R93) and a parameter table. -/

namespace Sys2Proof

/-- The first rows of table T-R95, from `ldi` to `store`: opcode byte and format. -/
def formatsToStore : List (Byte × Format) :=
  [(0xc3, .vr), (0x89, .vr), (0x8a, .vr), (0x70, .rr), (0x71, .rr), (0x88, .rr), (0x85, .rr),
   (0x01, .a), (0x02, .a), (0x03, .a), (0x04, .a), (0x05, .a), (0x06, .a), (0x07, .a), (0x50, .a),
   (0x51, .n), (0x40, .v), (0x41, .r), (0x42, .r), (0x20, .rr), (0x10, .ar), (0x11, .ra)]

/-- The other rows of table T-R95, from `dcr` to `sgr`. -/
def formatsFromDcr : List (Byte × Format) :=
  [(0xa0, .r), (0xa1, .r), (0xff, .n), (0xfe, .n), (0xe0, .r), (0xe1, .r), (0xe2, .vr), (0xe3, .vr),
   (0xe4, .r), (0xe5, .r), (0xe6, .vr), (0xe7, .vr), (0xb0, .pr), (0xb1, .rp), (0xd0, .vr), (0xd1, .vr),
   (0xb8, .n)]

/-- The 39 opcode bytes with their formats (30_encoding.md R95, table T-R95), in the table's order. -/
def opcodeFormats : List (Byte × Format) := formatsToStore ++ formatsFromDcr

/-- The format an opcode byte selects, if it is one of the 39 (30_encoding.md R83, R90). -/
def formatOf (b : Byte) : Option Format := opcodeFormats.lookup b

/-- Whether a byte may stand in an operand position (30_encoding.md R84 to R87). -/
def OperandByte.allows : OperandByte → Byte → Bool
  | .value, _ => true
  | .addr, _ => true
  | .reg, b => decide (b.toNat ≤ 7)
  | .port, b => decide (b = 0x01 ∨ b = 0x02)

/-- Whether every operand byte may stand where it stands, from byte 1 on. -/
def operandsAllowed : List OperandByte → List Byte → Bool
  | [], _ => true
  | _ :: _, [] => false
  | k :: ks, b :: bs => k.allows b && operandsAllowed ks bs

/-- The check on an encoded instruction: its opcode is defined, and each register byte and port byte is in range. -/
def wellFormedBytes : List Byte → Bool
  | [] => false
  | b :: bs =>
    match formatOf b with
    | some f => operandsAllowed f.operandBytes bs
    | none => false

/-- The check on GL_PIN_MAP: no two latched bits drive one pin (60_exceptions.md R266). -/
def Config.wf (c : Config) : Bool := decide c.glPinMap.toList.Nodup

end Sys2Proof
end

