-- ==== Sys2Proof/Decode.lean ====
section
/-! DEFINITION. The decoder (30_encoding.md R90) and, after it, the encoder, both from table T-R95. A decoder looks at
four bytes, the longest instruction's length; which of them belong to the instruction the opcode byte says (R81). -/

namespace Sys2Proof

/-- Why four bytes are no instruction (30_encoding.md R91 to R93). -/
inductive DecodeError where
  | invalidOpcode (b : Byte)
  | invalidRegister (b : Byte) (pos : Nat)
  | invalidPort (b : Byte)
deriving DecidableEq, Repr

/-- The register a selector code names: the whole byte must be 0x00 to 0x07 (30_encoding.md R85). -/
def Reg.ofByte (b : Byte) : Option Reg :=
  match b.toNat with
  | 0 => some .a
  | 1 => some .b
  | 2 => some .c
  | 3 => some .d
  | 4 => some .e
  | 5 => some .f
  | 6 => some .g
  | 7 => some .h
  | _ => none

/-- The selector code of a register (10_state.md R20, Table-1). -/
def Reg.code : Reg → Byte
  | .a => 0x00
  | .b => 0x01
  | .c => 0x02
  | .d => 0x03
  | .e => 0x04
  | .f => 0x05
  | .g => 0x06
  | .h => 0x07

/-- The port a port byte names (30_encoding.md R86). -/
def Port.ofByte (b : Byte) : Option Port :=
  match b.toNat with
  | 1 => some .p1
  | 2 => some .p2
  | _ => none

/-- The byte of a port number. -/
def Port.code : Port → Byte
  | .p1 => 0x01
  | .p2 => 0x02

/-- Step (4) of R90 for a Register byte at position `pos`; `k` goes on with the register. -/
def withReg (pos : Nat) (b : Byte) (k : Reg → Except DecodeError Instr) : Except DecodeError Instr :=
  match Reg.ofByte b with
  | some r => k r
  | none => .error (.invalidRegister b pos)

/-- Step (4) of R90 for a Port-no byte. -/
def withPort (b : Byte) (k : Port → Except DecodeError Instr) : Except DecodeError Instr :=
  match Port.ofByte b with
  | some p => k p
  | none => .error (.invalidPort b)

/-- Format R. -/
def decodeR (mk : Reg → Instr) (b1 : Byte) : Except DecodeError Instr :=
  withReg 1 b1 fun r => .ok (mk r)

/-- Format VR. -/
def decodeVR (mk : Byte → Reg → Instr) (b1 b2 : Byte) : Except DecodeError Instr :=
  withReg 2 b2 fun r => .ok (mk b1 r)

/-- Format RR: byte 1 is checked before byte 2. -/
def decodeRR (mk : Reg → Reg → Instr) (b1 b2 : Byte) : Except DecodeError Instr :=
  withReg 1 b1 fun r1 => withReg 2 b2 fun r2 => .ok (mk r1 r2)

/-- Format A. -/
def decodeA (mk : AddrOperand → Instr) (b1 b2 : Byte) : Except DecodeError Instr :=
  .ok (mk ⟨b1, b2⟩)

/-- What an opcode byte makes of the three bytes after it. -/
abbrev Row := Byte × (Byte → Byte → Byte → Except DecodeError Instr)

/-- The arithmetic and logic rows of table T-R95. -/
def arithRows : List Row :=
  [(0xc3, fun b1 b2 _ => decodeVR .ldi b1 b2),
   (0x89, fun b1 b2 _ => decodeVR .adi b1 b2),
   (0x8a, fun b1 b2 _ => decodeVR .sbi b1 b2),
   (0x70, fun b1 b2 _ => decodeRR .sub b1 b2),
   (0x71, fun b1 b2 _ => decodeRR .add b1 b2),
   (0x88, fun b1 b2 _ => decodeRR .xor b1 b2),
   (0x85, fun b1 b2 _ => decodeRR .nand b1 b2),
   (0xa0, fun b1 _ _ => decodeR .dcr b1),
   (0xa1, fun b1 _ _ => decodeR .inc b1),
   (0xd0, fun b1 b2 _ => decodeVR .xri b1 b2),
   (0xd1, fun b1 b2 _ => decodeVR .nandi b1 b2)]

/-- The control transfer rows, `hlt` and `nop`. -/
def flowRows : List Row :=
  [(0x01, fun b1 b2 _ => decodeA .jmp b1 b2),
   (0x02, fun b1 b2 _ => decodeA .jc b1 b2),
   (0x03, fun b1 b2 _ => decodeA .jnc b1 b2),
   (0x04, fun b1 b2 _ => decodeA .jz b1 b2),
   (0x05, fun b1 b2 _ => decodeA .jnz b1 b2),
   (0x06, fun b1 b2 _ => decodeA .jm b1 b2),
   (0x07, fun b1 b2 _ => decodeA .jp b1 b2),
   (0x50, fun b1 b2 _ => decodeA .call b1 b2),
   (0x51, fun _ _ _ => .ok .rts),
   (0xff, fun _ _ _ => .ok .hlt),
   (0xfe, fun _ _ _ => .ok .nop)]

/-- The stack, move, memory, port and SGR rows. -/
def moveRows : List Row :=
  [(0x40, fun b1 _ _ => .ok (.phi b1)),
   (0x41, fun b1 _ _ => decodeR .push b1),
   (0x42, fun b1 _ _ => decodeR .pull b1),
   (0x20, fun b1 b2 _ => decodeRR .move b1 b2),
   (0x10, fun b1 b2 b3 => withReg 3 b3 fun r => .ok (.load ⟨b1, b2⟩ r)),
   (0x11, fun b1 b2 b3 => withReg 1 b1 fun r => .ok (.store r ⟨b2, b3⟩)),
   (0xb0, fun b1 b2 _ => withPort b1 fun p => withReg 2 b2 fun r => .ok (.in_ p r)),
   (0xb1, fun b1 b2 _ => withReg 1 b1 fun r => withPort b2 fun p => .ok (.out r p)),
   (0xb8, fun _ _ _ => .ok .sgr)]

/-- The rotate and shift rows. -/
def shiftRows : List Row :=
  [(0xe0, fun b1 _ _ => decodeR .ror b1),
   (0xe1, fun b1 _ _ => decodeR .rol b1),
   (0xe2, fun b1 b2 _ => decodeVR .rri b1 b2),
   (0xe3, fun b1 b2 _ => decodeVR .rli b1 b2),
   (0xe4, fun b1 _ _ => decodeR .sfr b1),
   (0xe5, fun b1 _ _ => decodeR .sfl b1),
   (0xe6, fun b1 b2 _ => decodeVR .sli b1 b2),
   (0xe7, fun b1 b2 _ => decodeVR .sri b1 b2)]

/-- The opcode map (30_encoding.md R95): each of the 39 opcode bytes once. -/
def opcodeRows : List Row := arithRows ++ flowRows ++ moveRows ++ shiftRows

/-- The decode procedure (30_encoding.md R90) on the four bytes from the `pc` on: byte 0 alone selects the row. -/
def decode (b0 b1 b2 b3 : Byte) : Except DecodeError Instr :=
  match opcodeRows.lookup b0 with
  | some row => row b1 b2 b3
  | none => .error (.invalidOpcode b0)

/-- Decoding a list of bytes: its first four, and zero bytes where it is shorter (the convention of the opcode table's
numbering; the machine itself always has four bytes, since every address is backed, 20_memory.md R57). -/
def decodeList (bs : List Byte) : Except DecodeError Instr :=
  decode (bs.getD 0 0) (bs.getD 1 0) (bs.getD 2 0) (bs.getD 3 0)

/-- The bytes of an instruction in ascending address order (30_encoding.md R82, R95). -/
def encode : Instr → List Byte
  | .ldi v r => [0xc3, v, r.code]
  | .adi v r => [0x89, v, r.code]
  | .sbi v r => [0x8a, v, r.code]
  | .sub rd rs => [0x70, rd.code, rs.code]
  | .add rd rs => [0x71, rd.code, rs.code]
  | .xor rd rs => [0x88, rd.code, rs.code]
  | .nand rd rs => [0x85, rd.code, rs.code]
  | .jmp t => [0x01, t.a1, t.a2]
  | .jc t => [0x02, t.a1, t.a2]
  | .jnc t => [0x03, t.a1, t.a2]
  | .jz t => [0x04, t.a1, t.a2]
  | .jnz t => [0x05, t.a1, t.a2]
  | .jm t => [0x06, t.a1, t.a2]
  | .jp t => [0x07, t.a1, t.a2]
  | .call t => [0x50, t.a1, t.a2]
  | .rts => [0x51]
  | .phi v => [0x40, v]
  | .push r => [0x41, r.code]
  | .pull r => [0x42, r.code]
  | .move r1 r2 => [0x20, r1.code, r2.code]
  | .load t r => [0x10, t.a1, t.a2, r.code]
  | .store r t => [0x11, r.code, t.a1, t.a2]
  | .dcr r => [0xa0, r.code]
  | .inc r => [0xa1, r.code]
  | .hlt => [0xff]
  | .nop => [0xfe]
  | .ror r => [0xe0, r.code]
  | .rol r => [0xe1, r.code]
  | .rri v r => [0xe2, v, r.code]
  | .rli v r => [0xe3, v, r.code]
  | .sfr r => [0xe4, r.code]
  | .sfl r => [0xe5, r.code]
  | .sli v r => [0xe6, v, r.code]
  | .sri v r => [0xe7, v, r.code]
  | .in_ p r => [0xb0, p.code, r.code]
  | .out r p => [0xb1, r.code, p.code]
  | .xri v r => [0xd0, v, r.code]
  | .nandi v r => [0xd1, v, r.code]
  | .sgr => [0xb8]

/-- The format of an instruction (table T-R95, column Format). -/
def Instr.format : Instr → Format
  | .ldi _ _ | .adi _ _ | .sbi _ _ | .rri _ _ | .rli _ _ | .sli _ _ | .sri _ _ | .xri _ _ | .nandi _ _ => .vr
  | .sub _ _ | .add _ _ | .xor _ _ | .nand _ _ | .move _ _ => .rr
  | .jmp _ | .jc _ | .jnc _ | .jz _ | .jnz _ | .jm _ | .jp _ | .call _ => .a
  | .rts | .hlt | .nop | .sgr => .n
  | .phi _ => .v
  | .push _ | .pull _ | .dcr _ | .inc _ | .ror _ | .rol _ | .sfr _ | .sfl _ => .r
  | .load _ _ => .ar
  | .store _ _ => .ra
  | .in_ _ _ => .pr
  | .out _ _ => .rp

/-- The length of an instruction in bytes (table T-R95, column Length). -/
def Instr.length (i : Instr) : Nat := i.format.length

/-- The ISA table's column "Flags Set" (30_encoding.md R95; 10_state.md R24). -/
def Instr.setsFlags : Instr → Bool
  | .adi _ _ | .sbi _ _ | .sub _ _ | .add _ _ | .xor _ _ | .nand _ _ | .dcr _ | .inc _ | .ror _ | .rol _
  | .sfr _ | .sfl _ | .xri _ _ | .nandi _ _ => true
  | .ldi _ _ | .jmp _ | .jc _ | .jnc _ | .jz _ | .jnz _ | .jm _ | .jp _ | .call _ | .rts | .phi _ | .push _
  | .pull _ | .move _ _ | .load _ _ | .store _ _ | .hlt | .nop | .rri _ _ | .rli _ _ | .sli _ _ | .sri _ _
  | .in_ _ _ | .out _ _ | .sgr => false

/-- Byte `k` of a number whose byte 0 is its least significant byte, above `nbits` all zero. -/
def tableByte (nbits w k : Nat) : Byte := BitVec.ofNat 8 ((w % 2 ^ nbits) >>> (8 * k))

/-- The instruction the decoder reads from the bits of an opcode-table row: byte 0 first, every byte the number gives
no bits zero. -/
def decodeTableWord (nbits w : Nat) : Option Instr :=
  match decode (tableByte nbits w 0) (tableByte nbits w 1) (tableByte nbits w 2) (tableByte nbits w 3) with
  | .ok i => some i
  | .error _ => none

end Sys2Proof
end

