-- ==== Sys2Proof/Machine/State.lean ====
section
/-! DEFINITION. The state of the SDP-1C, SDP-1G and SDP-1D as plain data, the reasons a step can stop, and the state
after power-up (10_state.md R20 to R46). -/

namespace Sys2Proof.Machine

/-- The four model-level faults (60_exceptions.md R240, table T-R240), each with the values the table records. They are
terminal, and mark that the spec gives no behaviour from here on; the hardware has no traps. -/
inductive Fault where
  /-- Raised by instruction fetch: the byte at the `pc` is none of the 39 opcodes (R241). Safe: the machine stops. -/
  | invalidOpcode (b : Byte) (at_ : Addr)
  /-- Raised by decode, for every instruction with a Register operand: the byte in position `pos` is above 0x07 (R242).
  Safe: the machine stops. -/
  | invalidRegister (b : Byte) (pos : Nat) (at_ : Addr)
  /-- Raised by decode for `in` and `out`: the Port-no byte is neither 0x01 nor 0x02 (R243). Safe: the machine stops. -/
  | invalidPort (b : Byte) (at_ : Addr)
  /-- Raised by `store`: the effective address is below 0x8000, in ROM (R244). Safe: the machine stops. -/
  | storeToROM (ea : Addr) (at_ : Addr)
deriving DecidableEq, Repr

/-- The code numbers of table T-R240. -/
def Fault.code : Fault → Nat
  | .invalidOpcode _ _ => 1
  | .invalidRegister _ _ _ => 2
  | .invalidPort _ _ => 3
  | .storeToROM _ _ => 4

/-- What the model gives no meaning. -/
inductive Refusal where
  /-- Raised by `exec` for an instruction whose meaning is not written yet; no arm raises it. Safe. -/
  | notModelled (mnemonic : String)
  /-- Raised under ALU_ALIAS = Refuse only, by a two-operand ALU instruction with destination B whose right operand is
  not register B (40_ldi_and_alu_two_operand.md R114). Safe: the machine stops where Sequence would go on. -/
  | aluDestinationB
deriving DecidableEq, Repr

/-- The eight general purpose registers (10_state.md R20). -/
structure Regs where
  a : Byte
  b : Byte
  c : Byte
  d : Byte
  e : Byte
  f : Byte
  g : Byte
  h : Byte
deriving DecidableEq, Repr

/-- One 16-bit entry of the stack SK (10_state.md R29), as its bits 15:8 and its bits 7:0: a pushed byte fills the lower
half only, and what the upper half then holds is free (42_stack_phi_push_pull.md R160). -/
structure Entry where
  hi : Byte
  lo : Byte
deriving DecidableEq, Repr

/-- Memory as the listed bytes of the 65,536-byte address space (20_memory.md R50): ROM below 0x8000, RAM from 0x8000. -/
abbrev Memory := List Host.Cell

structure State where
  /-- The chip's parameters (00_scope.md R8); no step changes them. The model's own field (log 4). -/
  cfg : Config
  /-- A to H (R20). -/
  regs : Regs
  /-- The zero flag (R23). -/
  zf : Bool
  /-- The carry flag (R23). -/
  cf : Bool
  /-- The sign flag (R23). -/
  sf : Bool
  /-- The program counter: the address of the next instruction's opcode byte (R26). -/
  pc : Addr
  /-- The stack pointer (R30). -/
  sp : Byte
  /-- The stack SK, separate from memory (R29). -/
  sk : Vector Entry 256
  /-- The memory address register (R32, R36). -/
  mar : Addr
  /-- The input MDR: the byte last stored (R33, R36). -/
  idr : Byte
  /-- The output MDR: the byte last read from memory (R34, R36). -/
  odr : Byte
  /-- The instruction register: the opcode byte of the instruction executed last (R35, R36). -/
  ir : Byte
  /-- OUTP[1] (R37). -/
  outp1 : Byte
  /-- OUTP[2] (R37). -/
  outp2 : Byte
  /-- The acknowledge line; low between instructions (R38). -/
  ackLine : Bool
  /-- The SGR signal; low between instructions (R38). -/
  sgrLine : Bool
  /-- The clock has been stopped by `hlt` (R40). -/
  halted : Bool
  /-- The 1st VRAM register of the SDP-1G (R41). -/
  v1 : Byte
  /-- The 2nd VRAM register of the SDP-1G (R41). -/
  v2 : Byte
  /-- The GPU latch GL of the SDP-1G (R41). -/
  gl : BitVec 16
  /-- ROM and RAM (20_memory.md R52, R53). -/
  mem : Memory
  /-- How many free values have been drawn. The model's own field (log 15). -/
  draws : Nat
deriving DecidableEq, Repr

/-- Power-up (70_reset_and_hazards.md R280, R281): the `pc` is 0x0000, the machine runs, both lines are low, and all
else is whatever `init` holds. `init` is the parameter RESET_VALUES together with ROM_IMAGE (00_scope.md R8). -/
def State.powerUp (init : State) : State :=
  { init with pc := 0x0000, halted := false, ackLine := false, sgrLine := false }

/-- The reset values the model names where the spec gives none: zero everywhere, and no memory byte listed. DESIGN
CHOICE, unsafe (logs 1, 2, 3). -/
def State.zeros : State where
  cfg := Config.standard
  regs := ⟨0, 0, 0, 0, 0, 0, 0, 0⟩
  zf := false
  cf := false
  sf := false
  pc := 0
  sp := 0
  sk := Vector.replicate 256 ⟨0, 0⟩
  mar := 0
  idr := 0
  odr := 0
  ir := 0
  outp1 := 0
  outp2 := 0
  ackLine := false
  sgrLine := false
  halted := false
  v1 := 0
  v2 := 0
  gl := 0
  mem := []
  draws := 0

/-- The machine right after power-up, with the model's reset values (10_state.md R44). -/
def State.reset : State := State.powerUp State.zeros

end Sys2Proof.Machine
end

