-- ==== Sys2Proof/Machine/Ops.lean ====
section
/-! DEFINITION. The named operations over registers, memory, the stack and the program counter. The hardware has no
exception entry and no return from one (60_exceptions.md R240, R248, R249); what stands in their place is `raise`. -/

namespace Sys2Proof.Machine

/-- What a step answers on this machine. -/
abbrev Result := Host.Outcome State Fault Refusal

/-- `raise F` (00_scope.md R13, 60_exceptions.md R240): the run ends. Nothing is saved and no handler is entered, since
the hardware has no trap; the fault carries the recorded values and the state is the one before the instruction. -/
def raise (f : Fault) : Result := .fault f

/-! ### Registers -/

/-- Read a register (10_state.md R20). -/
def Regs.get (x : Regs) : Reg → Byte
  | .a => x.a
  | .b => x.b
  | .c => x.c
  | .d => x.d
  | .e => x.e
  | .f => x.f
  | .g => x.g
  | .h => x.h

/-- Write a register. -/
def Regs.set (x : Regs) (r : Reg) (v : Byte) : Regs :=
  match r with
  | .a => { x with a := v }
  | .b => { x with b := v }
  | .c => { x with c := v }
  | .d => { x with d := v }
  | .e => { x with e := v }
  | .f => { x with f := v }
  | .g => { x with g := v }
  | .h => { x with h := v }

/-- `x[r]` (00_scope.md R12). -/
def State.reg (s : State) (r : Reg) : Byte := s.regs.get r

/-- `x[r] <- v` (00_scope.md R12). -/
def State.setReg (s : State) (r : Reg) (v : Byte) : State := { s with regs := s.regs.set r v }

/-! ### Program counter -/

/-- `pc <- target` (00_scope.md R12). -/
def State.setPc (s : State) (t : Addr) : State := { s with pc := t }

/-- The end of an instruction that does not transfer control: `pc <- (pc + len) mod 65536` (10_state.md R27). -/
def State.advance (s : State) (len : Nat) : State := s.setPc (s.pc + BitVec.ofNat 16 len)

/-! ### Memory -/

/-- The byte an address holds; an unlisted one reads as `Config.unwrittenByte` (log 2). -/
def Memory.get : Memory → Nat → Byte
  | [], _ => Config.unwrittenByte
  | c :: m, a => if c.1 = a then c.2 else Memory.get m a

/-- Put a cell where its address belongs in rising order. -/
def Memory.insert (c : Host.Cell) : Memory → Memory
  | [] => [c]
  | x :: m => if c.1 < x.1 then c :: x :: m else x :: Memory.insert c m

/-- Make an address hold a byte, in canonical form: the old entry goes, and a new one is listed unless the byte is what
an unlisted address reads as. -/
def Memory.set (m : Memory) (a : Nat) (v : Byte) : Memory :=
  if v = Config.unwrittenByte then m.filter (fun c => c.1 ≠ a)
  else Memory.insert (a, v) (m.filter (fun c => c.1 ≠ a))

/-- The canonical form: addresses strictly rising and inside the address space, and no entry equal to what an unlisted
address reads as. -/
abbrev Memory.wf (m : Memory) : Prop :=
  m.Pairwise (fun x y => x.1 < y.1) ∧ ∀ c ∈ m, c.1 < 65536 ∧ c.2 ≠ Config.unwrittenByte

/-- Whether an address lies in RAM: bit 15 is 1 (20_memory.md R50). -/
def inRAM (a : Addr) : Bool := a.msb

/-- `MemRead(addr, 1)` (20_memory.md R55): the ROM and RAM halves share one list, told apart by bit 15 of the address. -/
def State.memRead (s : State) (a : Addr) : Byte := s.mem.get a.toNat

/-- The bytes of memory after one byte has been put at an address, wherever it lies. -/
def State.poke (s : State) (a : Addr) (v : Byte) : State := { s with mem := s.mem.set a.toNat v }

/-- `MemWrite(addr, 1, v)` (20_memory.md R55): none where the address is in ROM, which is the fault StoreToROM. -/
def State.memWrite? (s : State) (a : Addr) (v : Byte) : Option State :=
  if inRAM a then some (s.poke a v) else none

/-! ### Stack -/

/-- `SK[i]` (00_scope.md R12). -/
def State.entry (s : State) (i : Byte) : Entry := s.sk[i.toNat]'i.isLt

/-- `Push16(v)`: `SP <- (SP + 1) mod 256; SK[SP] <- v` (10_state.md R31). -/
def State.push16 (s : State) (v : Entry) : State :=
  { s with sp := s.sp + 1, sk := s.sk.set (s.sp + 1).toNat v (s.sp + 1).isLt }

/-- The value `Pop16()` returns: `SK[SP]` (10_state.md R31). -/
def State.top (s : State) : Entry := s.entry s.sp

/-- What `Pop16()` does to the stack: `SP <- (SP - 1) mod 256` (10_state.md R31). -/
def State.pop16 (s : State) : State := { s with sp := s.sp - 1 }

/-! ### Free values -/

/-- Count `n` free values as drawn, so that the next draw is a fresh one (log 15). -/
def State.countDraws (s : State) (n : Nat) : State := { s with draws := s.draws + n }

/-! ### The memory interface registers (10_state.md R36, log 16) -/

/-- A read of memory loads MAR with the address and ODR with the byte. -/
def State.latchRead (s : State) (a : Addr) (v : Byte) : State := { s with mar := a, odr := v }

/-- A write of memory loads MAR with the address and IDR with the byte. -/
def State.latchWrite (s : State) (a : Addr) (v : Byte) : State := { s with mar := a, idr := v }

/-- The opcode byte goes into IR. -/
def State.latchOpcode (s : State) (v : Byte) : State := { s with ir := v }

/-! ### Running -/

/-- The clock stops (10_state.md R40). -/
def State.stopClock (s : State) : State := { s with halted := true }

/-- Power off and on again (60_exceptions.md R270; 70_reset_and_hazards.md R280): the ROM stays, everything else is a
fresh power-up with the reset values of `fresh`; the chip and the count of draws stay the same. An act of the
environment, not of a step (log 27). -/
def State.powerCycle (s fresh : State) : State :=
  State.powerUp { fresh with
    cfg := s.cfg
    draws := s.draws
    mem := s.mem.filter (fun c => c.1 < 0x8000) ++ fresh.mem.filter (fun c => ¬ c.1 < 0x8000) }

end Sys2Proof.Machine
end

