-- ==== Sys2Proof/Machine/Flags.lean ====
section
/-! DEFINITION. The ALU's value functions with their carry values, and the flags (40_ldi_and_alu_two_operand.md R110 to
R112, 45_rotates_and_shifts.md R190). Each value function answers the 8-bit result and the carry value. -/

namespace Sys2Proof.Machine

/-- `add8`: the sum modulo 256 and the carry out of bit 7 (R112). -/
def add8 (a b : Byte) : Byte × Bool := (a + b, decide (256 ≤ a.toNat + b.toNat))

/-- The carry value of a subtraction per SUB_CARRY: under Borrow 1 if a < b, under NotBorrow 1 if a >= b, unsigned (R112). -/
def subCarry (k : SubCarry) (a b : Byte) : Bool :=
  match k with
  | .borrow => decide (a.toNat < b.toNat)
  | .notBorrow => decide (b.toNat ≤ a.toNat)
  | .chip => if Config.chipBorrows then decide (a.toNat < b.toNat) else decide (b.toNat ≤ a.toNat)

/-- `sub8`: the difference modulo 256; the carry per SUB_CARRY (R112). -/
def sub8 (k : SubCarry) (a b : Byte) : Byte × Bool := (a - b, subCarry k a b)

/-- The carry value of a logic operation per LOGIC_CARRY, from the old CF and the value drawn (R112). -/
def logicCarry (k : LogicCarry) (cf drawn : Bool) : Bool :=
  match k with
  | .cleared => false
  | .unchanged => cf
  | .any => drawn

/-- `xor8` (R112). -/
def xor8 (k : LogicCarry) (cf drawn : Bool) (a b : Byte) : Byte × Bool := (a ^^^ b, logicCarry k cf drawn)

/-- `nand8` (R112). -/
def nand8 (k : LogicCarry) (cf drawn : Bool) (a b : Byte) : Byte × Bool := (~~~(a &&& b), logicCarry k cf drawn)

/-- How many values a logic operation draws. -/
def logicDraws (k : LogicCarry) : Nat := if k = .any then 1 else 0

/-- The bit that re-enters on a rotate: the one moved out, or CF under ROTATE_KIND = ThroughCarry9 (R190). -/
def rotateBit (k : RotateKind) (cf out : Bool) : Bool :=
  match k with
  | .circular8 => out
  | .throughCarry9 => cf

/-- `ror8`: `{a[0], a[7:1]}` and `a[0]` (R190). -/
def ror8 (k : RotateKind) (cf : Bool) (a : Byte) : Byte × Bool :=
  (BitVec.ofBool (rotateBit k cf (a.getLsbD 0)) ++ a.extractLsb' 1 7, a.getLsbD 0)

/-- `rol8`: `{a[6:0], a[7]}` and `a[7]` (R190). -/
def rol8 (k : RotateKind) (cf : Bool) (a : Byte) : Byte × Bool :=
  (a.extractLsb' 0 7 ++ BitVec.ofBool (rotateBit k cf (a.getLsbD 7)), a.getLsbD 7)

/-- `shr8`: `{0, a[7:1]}` and `a[0]`; bit 7 stays under SHIFT_FILL = SignCopy (R190). -/
def shr8 (k : ShiftFill) (a : Byte) : Byte × Bool :=
  let top := match k with
    | .zero => false
    | .signCopy => a.getLsbD 7
  (BitVec.ofBool top ++ a.extractLsb' 1 7, a.getLsbD 0)

/-- `shl8`: `{a[6:0], 0}` and `a[7]` (R190). -/
def shl8 (a : Byte) : Byte × Bool := (a.extractLsb' 0 7 ++ BitVec.ofBool false, a.getLsbD 7)

/-- The carry value of a rotate or shift per SHIFT_CARRY, from the old CF, the value drawn and the bit moved out
(00_scope.md R8; 92_eei_decisions.md D13). -/
def shiftCarry (k : ShiftCarry) (cf drawn out : Bool) : Bool :=
  match k with
  | .bitOut => out
  | .unchanged => cf
  | .any => drawn

/-- How many values a flag-setting rotate or shift draws. -/
def shiftDraws (k : ShiftCarry) : Nat := if k = .any then 1 else 0

/-- `SetFlags(r, c)` (R111): all three flags are written together. -/
def State.setFlags (s : State) (r : Byte) (c : Bool) : State :=
  { s with zf := decide (r = 0x00), sf := r.msb, cf := c }

end Sys2Proof.Machine
end

