-- ==== Sys2Proof/Machine/Alu.lean ====
section
/-! DEFINITION. The routing of the ALU instructions through A and B (40_ldi_and_alu_two_operand.md R113, R114;
45_rotates_and_shifts.md R191). -/

namespace Sys2Proof.Machine

/-- `Alu2(op, rd, v)` with flags (R113): `B <- v`; `A <- x[rd]`, read after that; `(r, c) <- op(A, B); A <- r;
SetFlags(r, c)`; `x[rd] <- A`. The order of the writes is part of the meaning. -/
def State.alu2 (s : State) (op : Byte → Byte → Byte × Bool) (rd : Reg) (v : Byte) : State :=
  let s1 := s.setReg .b v
  let s2 := s1.setReg .a (s1.reg rd)
  let rc := op (s2.reg .a) (s2.reg .b)
  let s3 := (s2.setReg .a rc.1).setFlags rc.1 rc.2
  s3.setReg rd (s3.reg .a)

/-- Whether ALU_ALIAS gives the instruction no meaning: under Refuse, destination B with a right operand other than
register B itself (R114). -/
def aliasRefused (k : AluAlias) (rd : Reg) (rightIsB : Bool) : Bool :=
  decide (k = .refuse) && decide (rd = .b) && !rightIsB

/-- A two-operand ALU instruction of `len` bytes that draws `n` free values. -/
def alu2Instr (op : Byte → Byte → Byte × Bool) (n : Nat) (rd : Reg) (v : Byte) (rightIsB : Bool) (len : Nat)
    (s : State) : Result :=
  if aliasRefused s.cfg.aluAlias rd rightIsB then .refused .aluDestinationB
  else .next (((s.alu2 op rd v).countDraws n).advance len)

/-- `Alu1(op, rd)` with flags (45_rotates_and_shifts.md R191): `A <- x[rd]`; `(r, c) <- op(A); A <- r`; the flags, with
the carry per SHIFT_CARRY; `x[rd] <- A`. -/
def State.alu1 (s : State) (op : Byte → Byte × Bool) (rd : Reg) : State :=
  let s1 := s.setReg .a (s.reg rd)
  let rc := op (s1.reg .a)
  let c := shiftCarry s.cfg.shiftCarry s.cf (Config.shiftCarryDraw s.draws) rc.2
  let s2 := (s1.setReg .a rc.1).setFlags rc.1 c
  s2.setReg rd (s2.reg .a)

/-- `Alu1i(op, v, rd)` (R191): as `Alu1` with `A <- v` for its first step, and no flag written. -/
def State.alu1i (s : State) (op : Byte → Byte × Bool) (v : Byte) (rd : Reg) : State :=
  let s1 := s.setReg .a v
  let rc := op (s1.reg .a)
  let s2 := s1.setReg .a rc.1
  s2.setReg rd (s2.reg .a)

/-- A rotate or shift of a register: two bytes long, sets the flags. -/
def alu1Instr (op : Byte → Byte × Bool) (rd : Reg) (s : State) : Result :=
  .next (((s.alu1 op rd).countDraws (shiftDraws s.cfg.shiftCarry)).advance 2)

/-- A rotate or shift of a constant: three bytes long, sets no flag. -/
def alu1iInstr (op : Byte → Byte × Bool) (v : Byte) (rd : Reg) (s : State) : Result :=
  .next ((s.alu1i op v rd).advance 3)

/-- XOR with this state's LOGIC_CARRY. -/
def State.xorOp (s : State) : Byte → Byte → Byte × Bool :=
  xor8 s.cfg.logicCarry s.cf (Config.logicCarryDraw s.draws)

/-- NAND with this state's LOGIC_CARRY. -/
def State.nandOp (s : State) : Byte → Byte → Byte × Bool :=
  nand8 s.cfg.logicCarry s.cf (Config.logicCarryDraw s.draws)

end Sys2Proof.Machine
end

