-- ==== Sys2Proof/Machine/Arith.lean ====
section
/-! DEFINITION. SUB, ADD, XOR, NAND (40_ldi_and_alu_two_operand.md) and DCR, INC (44_dcr_inc_hlt_nop.md). The first
register is the left operand and the destination; the second is read before anything is written (R113). -/

namespace Sys2Proof.Machine

/-- `sub rd rs` (R119): `x[rd] - x[rs]`. -/
def execSub (rd rs : Reg) (s : State) : Result :=
  alu2Instr (sub8 s.cfg.subCarry) 0 rd (s.reg rs) (decide (rs = .b)) 3 s

/-- `add rd rs` (R118). -/
def execAdd (rd rs : Reg) (s : State) : Result :=
  alu2Instr add8 0 rd (s.reg rs) (decide (rs = .b)) 3 s

/-- `xor rd rs` (R120). -/
def execXor (rd rs : Reg) (s : State) : Result :=
  alu2Instr s.xorOp (logicDraws s.cfg.logicCarry) rd (s.reg rs) (decide (rs = .b)) 3 s

/-- `nand rd rs` (R121). -/
def execNand (rd rs : Reg) (s : State) : Result :=
  alu2Instr s.nandOp (logicDraws s.cfg.logicCarry) rd (s.reg rs) (decide (rs = .b)) 3 s

/-- `dcr r` (R181): the ALU subtraction with the constant 0x01 as right operand (R180). -/
def execDcr (r : Reg) (s : State) : Result := alu2Instr (sub8 s.cfg.subCarry) 0 r 0x01 false 2 s

/-- `inc r` (R182): the ALU addition with the constant 0x01 as right operand (R180). -/
def execInc (r : Reg) (s : State) : Result := alu2Instr add8 0 r 0x01 false 2 s

end Sys2Proof.Machine
end

