-- ==== Sys2Proof/Machine/Control.lean ====
section
/-! DEFINITION. HLT and NOP (44_dcr_inc_hlt_nop.md). -/

namespace Sys2Proof.Machine

/-- `hlt` (R184): `halted <- 1`, the `pc` at the address after it. -/
def execHlt (s : State) : Result := .next (s.stopClock.advance 1)

/-- `nop` (R183): only the `pc` advances. -/
def execNop (s : State) : Result := .next (s.advance 1)

end Sys2Proof.Machine
end

