-- ==== Sys2Proof/Machine/Immediate.lean ====
section
/-! DEFINITION. LDI, ADI, SBI (40_ldi_and_alu_two_operand.md) and XRI, NANDI (47_xri_nandi.md). -/

namespace Sys2Proof.Machine

/-- `ldi v, r` (R115): `x[r] <- v`; no flag. -/
def execLdi (v : Byte) (r : Reg) (s : State) : Result := .next ((s.setReg r v).advance 3)

/-- `adi v, r` (R116): `Alu2(add8, r, v)` with flags. -/
def execAdi (v : Byte) (r : Reg) (s : State) : Result := alu2Instr add8 0 r v false 3 s

/-- `sbi v, r` (R117): `Alu2(sub8, r, v)` with flags, the register minus the constant. -/
def execSbi (v : Byte) (r : Reg) (s : State) : Result := alu2Instr (sub8 s.cfg.subCarry) 0 r v false 3 s

/-- `xri v, r` (R220): `Alu2(xor8, r, v)` with flags. -/
def execXri (v : Byte) (r : Reg) (s : State) : Result :=
  alu2Instr s.xorOp (logicDraws s.cfg.logicCarry) r v false 3 s

/-- `nandi v, r` (R221): `Alu2(nand8, r, v)` with flags. -/
def execNandi (v : Byte) (r : Reg) (s : State) : Result :=
  alu2Instr s.nandOp (logicDraws s.cfg.logicCarry) r v false 3 s

end Sys2Proof.Machine
end

