-- ==== Sys2Proof/Machine/Operands.lean ====
section
/-! DEFINITION. The operand forms: 16-bit addresses out of two instruction bytes, the two registers of `move`, and the
16-bit entries that hold a pushed byte. -/

namespace Sys2Proof.Machine

/-- `Addr16(a1, a2)` (30_encoding.md R88): `{a2, a1}` under LowFirst, `{a1, a2}` under HighFirst. -/
def addr16 (o : AddrOrder) (t : AddrOperand) : Addr :=
  match o with
  | .lowFirst => t.a2 ++ t.a1
  | .highFirst => t.a1 ++ t.a2

/-- The address an Address operand stands for: the target of a transfer (41_jumps_call_rts.md R149), the effective
address of `load` and `store` (43_move_load_store.md R173). -/
def State.address (s : State) (t : AddrOperand) : Addr := addr16 s.cfg.addrOrder t

/-- The source and the destination of `move r1 r2` (43_move_load_store.md R170). -/
def moveOperands (k : MoveDir) (r1 r2 : Reg) : Reg × Reg :=
  match k with
  | .srcFirst => (r1, r2)
  | .dstFirst => (r2, r1)

/-- The entry a `phi` or `push` of a byte writes: the byte below, the free PUSH8_HIGH above
(42_stack_phi_push_pull.md R160). -/
def State.dataEntry (s : State) (v : Byte) : Entry := ⟨Config.push8High s.draws, v⟩

/-- The byte a `pull` takes from an entry: bits 7:0 (42_stack_phi_push_pull.md R160). -/
def entryLow (e : Entry) : Byte := e.lo

/-- An address as one whole entry (20_memory.md R60). -/
def addrEntry (a : Addr) : Entry := ⟨a.extractLsb' 8 8, a.extractLsb' 0 8⟩

/-- A whole entry as an address (20_memory.md R60). -/
def entryAddr (e : Entry) : Addr := e.hi ++ e.lo

/-- What output port `p` holds (10_state.md R37). -/
def State.outp (s : State) (p : Port) : Byte :=
  match p with
  | .p1 => s.outp1
  | .p2 => s.outp2

/-- `OUTP[p] <- v` (46_in_out.md R211). -/
def State.setOutp (s : State) (p : Port) (v : Byte) : State :=
  match p with
  | .p1 => { s with outp1 := v }
  | .p2 => { s with outp2 := v }

/-- `INP[p]`: the byte the environment presents at this read (46_in_out.md R210; log 14). -/
def State.inp (s : State) (p : Port) : Byte := Config.inputOracle p s.draws

end Sys2Proof.Machine
end

