-- ==== Sys2Proof/Machine/Jumps.lean ====
section
/-! DEFINITION. Jumps, CALL and RTS (41_jumps_call_rts.md). -/

namespace Sys2Proof.Machine

/-- Take the transfer if the condition holds, else go on after the three bytes (R149). -/
def State.jumpIf (s : State) (cond : Bool) (t : AddrOperand) : State :=
  if cond then s.setPc (s.address t) else s.advance 3

/-- `jmp T` (R140). -/
def execJmp (t : AddrOperand) (s : State) : Result := .next (s.setPc (s.address t))

/-- `jc T` (R141): if CF is set. -/
def execJc (t : AddrOperand) (s : State) : Result := .next (s.jumpIf s.cf t)

/-- `jnc T` (R142): if CF is not set. -/
def execJnc (t : AddrOperand) (s : State) : Result := .next (s.jumpIf (!s.cf) t)

/-- `jz T` (R143): if ZF is set. -/
def execJz (t : AddrOperand) (s : State) : Result := .next (s.jumpIf s.zf t)

/-- `jnz T` (R144): if ZF is not set. -/
def execJnz (t : AddrOperand) (s : State) : Result := .next (s.jumpIf (!s.zf) t)

/-- `jm T` (R145): if SF is set. -/
def execJm (t : AddrOperand) (s : State) : Result := .next (s.jumpIf s.sf t)

/-- `jp T` (R146): if SF is not set. -/
def execJp (t : AddrOperand) (s : State) : Result := .next (s.jumpIf (!s.sf) t)

/-- `call T` (R147): pushes the address of the instruction after the `call`, whole, in one entry. -/
def execCall (t : AddrOperand) (s : State) : Result := .next ((s.push16 (addrEntry (s.pc + 3))).setPc (s.address t))

/-- `rts` (R148): `pc <- Pop16()`. -/
def execRts (s : State) : Result := .next (s.pop16.setPc (entryAddr s.top))

end Sys2Proof.Machine
end

