-- ==== Sys2Proof/Machine/Devices.lean ====
section
/-! DEFINITION. The SDP-1G and the SDP-1D (60_exceptions.md R260 to R266): what one pulse of the acknowledge line and
one pulse of the SGR signal do, and the pins and LEDs as functions of the latch GL. -/

namespace Sys2Proof.Machine

/-- What the SDP-1G does when the acknowledge line goes high (60_exceptions.md R261, R262). -/
def State.vramCapture (s : State) : State :=
  if s.outp2 = 0xff then { s with v1 := s.outp1 }
  else if s.outp2 = 0xfe then { s with v2 := s.outp1 }
  else s

/-- What the SDP-1G does when the SGR signal goes high: `GL <- {V2, V1}` (60_exceptions.md R263, R264). -/
def State.glLatch (s : State) : State := { s with gl := s.v2 ++ s.v1 }

/-- The level of the acknowledge line. -/
def State.setAck (s : State) (x : Bool) : State := { s with ackLine := x }

/-- The level of the SGR signal. -/
def State.setSgr (s : State) (x : Bool) : State := { s with sgrLine := x }

/-- `AckPulse()`: the line goes high, the SDP-1G reacts, the line goes low again (10_state.md R38; R265). -/
def State.ackPulse (s : State) : State := ((s.setAck true).vramCapture).setAck false

/-- `SgrPulse()`: the signal goes high, the SDP-1G reacts, the signal goes low again (10_state.md R38; R265). -/
def State.sgrPulse (s : State) : State := ((s.setSgr true).glLatch).setSgr false

/-- Whether an `out` to port `p` pulses the acknowledge line: ACK_SCOPE (46_in_out.md R211). -/
def pulsesAck (k : AckScope) (p : Port) : Bool :=
  match k with
  | .anyOut => true
  | .port1Only => decide (p = .p1)

/-- The level of output pin n + 1 of the SDP-1G: that of the latched bit GL_PIN_MAP leads to it (60_exceptions.md R266). -/
def State.pin (s : State) (n : Fin 16) : Bool :=
  (List.finRange 16).any fun k => decide (s.cfg.glPinMap[k] = n) && s.gl.getLsbD k

/-- Whether the anode of LED n of the SDP-1D is driven high, so that it is lit: pin n + 1 drives LED n
(60_exceptions.md R266). That a high anode lights the LED is PRESUMED (93_implementation_defined.md K1; log 13). -/
def State.led (s : State) (n : Fin 16) : Bool := s.pin n

end Sys2Proof.Machine
end

