-- ==== Sys2Proof/Machine/Ports.lean ====
section
/-! DEFINITION. IN and OUT (46_in_out.md) and SGR (48_sgr.md). -/

namespace Sys2Proof.Machine

/-- `in p, r` (R210): the byte the environment presents now; a later read may find another one. -/
def execIn (p : Port) (r : Reg) (s : State) : Result := .next (((s.setReg r (s.inp p)).countDraws 1).advance 3)

/-- `out r, p` (R211): the port holds the byte, then the acknowledge line is pulsed as ACK_SCOPE says. -/
def execOut (r : Reg) (p : Port) (s : State) : Result :=
  let s1 := s.setOutp p (s.reg r)
  let s2 := if pulsesAck s.cfg.ackScope p then s1.ackPulse else s1
  .next (s2.advance 3)

/-- `sgr` (R230): pulses the SGR signal. -/
def execSgr (s : State) : Result := .next (s.sgrPulse.advance 1)

end Sys2Proof.Machine
end

