-- ==== Sys2Proof/Machine/Rotates.lean ====
section
/-! DEFINITION. ROR, ROL, RRI, RLI, SFR, SFL, SLI and SRI (45_rotates_and_shifts.md). -/

namespace Sys2Proof.Machine

/-- `ror r` (R192). -/
def execRor (r : Reg) (s : State) : Result := alu1Instr (ror8 s.cfg.rotateKind s.cf) r s

/-- `rol r` (R193). -/
def execRol (r : Reg) (s : State) : Result := alu1Instr (rol8 s.cfg.rotateKind s.cf) r s

/-- `rri v, r` (R194): the constant is what is rotated. -/
def execRri (v : Byte) (r : Reg) (s : State) : Result := alu1iInstr (ror8 s.cfg.rotateKind s.cf) v r s

/-- `rli v, r` (R195). -/
def execRli (v : Byte) (r : Reg) (s : State) : Result := alu1iInstr (rol8 s.cfg.rotateKind s.cf) v r s

/-- `sfr r` (R196). -/
def execSfr (r : Reg) (s : State) : Result := alu1Instr (shr8 s.cfg.shiftFill) r s

/-- `sfl r` (R197). -/
def execSfl (r : Reg) (s : State) : Result := alu1Instr shl8 r s

/-- `sli v, r` (R198). -/
def execSli (v : Byte) (r : Reg) (s : State) : Result := alu1iInstr shl8 v r s

/-- `sri v, r` (R199). -/
def execSri (v : Byte) (r : Reg) (s : State) : Result := alu1iInstr (shr8 s.cfg.shiftFill) v r s

end Sys2Proof.Machine
end

