-- ==== Sys2Proof/Machine/Stack.lean ====
section
/-! DEFINITION. PHI, PUSH and PULL (42_stack_phi_push_pull.md). -/

namespace Sys2Proof.Machine

/-- Push a byte, with a fresh free value above it (R160). -/
def State.pushByte (s : State) (v : Byte) : State := (s.push16 (s.dataEntry v)).countDraws 1

/-- `phi v` (R161). -/
def execPhi (v : Byte) (s : State) : Result := .next ((s.pushByte v).advance 2)

/-- `push r` (R162). -/
def execPush (r : Reg) (s : State) : Result := .next ((s.pushByte (s.reg r)).advance 2)

/-- `pull r` (R163): bits 7:0 of the entry; no flag. -/
def execPull (r : Reg) (s : State) : Result := .next ((s.pop16.setReg r (entryLow s.top)).advance 2)

end Sys2Proof.Machine
end

