-- ==== Sys2Proof/Machine/Transfer.lean ====
section
/-! DEFINITION. MOVE, LOAD and STORE (43_move_load_store.md). -/

namespace Sys2Proof.Machine

/-- `move r1 r2` (R170): `x[d] <- x[s]`, source and destination per MOVE_DIR. -/
def execMove (r1 r2 : Reg) (s : State) : Result :=
  let sd := moveOperands s.cfg.moveDir r1 r2
  .next ((s.setReg sd.2 (s.reg sd.1)).advance 3)

/-- `load EA, r` (R171): reads one byte, from ROM or RAM. -/
def execLoad (t : AddrOperand) (r : Reg) (s : State) : Result :=
  let ea := s.address t
  let v := s.memRead ea
  .next (((s.setReg r v).latchRead ea v).advance 4)

/-- `store r, EA` (R172): writes one byte of RAM; an EA in ROM is the fault StoreToROM (R244). -/
def execStore (r : Reg) (t : AddrOperand) (s : State) : Result :=
  let ea := s.address t
  match s.memWrite? ea (s.reg r) with
  | some s' => .next ((s'.latchWrite ea (s.reg r)).advance 4)
  | none => raise (.storeToROM ea s.pc)

end Sys2Proof.Machine
end

