-- ==== Sys2Proof/Machine/Dispatch.lean ====
section
/-! DEFINITION. Which meaning each instruction has: one arm per constructor. -/

namespace Sys2Proof.Machine

def exec (i : Instr) (s : State) : Host.Outcome State Fault Refusal :=
  match i with
  | .ldi v r => Sys2Proof.Machine.execLdi v r s
  | .adi v r => Sys2Proof.Machine.execAdi v r s
  | .sbi v r => Sys2Proof.Machine.execSbi v r s
  | .sub rd rs => Sys2Proof.Machine.execSub rd rs s
  | .add rd rs => Sys2Proof.Machine.execAdd rd rs s
  | .xor rd rs => Sys2Proof.Machine.execXor rd rs s
  | .nand rd rs => Sys2Proof.Machine.execNand rd rs s
  | .jmp t => Sys2Proof.Machine.execJmp t s
  | .jc t => Sys2Proof.Machine.execJc t s
  | .jnc t => Sys2Proof.Machine.execJnc t s
  | .jz t => Sys2Proof.Machine.execJz t s
  | .jnz t => Sys2Proof.Machine.execJnz t s
  | .jm t => Sys2Proof.Machine.execJm t s
  | .jp t => Sys2Proof.Machine.execJp t s
  | .call t => Sys2Proof.Machine.execCall t s
  | .rts => Sys2Proof.Machine.execRts s
  | .phi v => Sys2Proof.Machine.execPhi v s
  | .push r => Sys2Proof.Machine.execPush r s
  | .pull r => Sys2Proof.Machine.execPull r s
  | .move r1 r2 => Sys2Proof.Machine.execMove r1 r2 s
  | .load t r => Sys2Proof.Machine.execLoad t r s
  | .store r t => Sys2Proof.Machine.execStore r t s
  | .dcr r => Sys2Proof.Machine.execDcr r s
  | .inc r => Sys2Proof.Machine.execInc r s
  | .hlt => Sys2Proof.Machine.execHlt s
  | .nop => Sys2Proof.Machine.execNop s
  | .ror r => Sys2Proof.Machine.execRor r s
  | .rol r => Sys2Proof.Machine.execRol r s
  | .rri v r => Sys2Proof.Machine.execRri v r s
  | .rli v r => Sys2Proof.Machine.execRli v r s
  | .sfr r => Sys2Proof.Machine.execSfr r s
  | .sfl r => Sys2Proof.Machine.execSfl r s
  | .sli v r => Sys2Proof.Machine.execSli v r s
  | .sri v r => Sys2Proof.Machine.execSri v r s
  | .in_ p r => Sys2Proof.Machine.execIn p r s
  | .out r p => Sys2Proof.Machine.execOut r p s
  | .xri v r => Sys2Proof.Machine.execXri v r s
  | .nandi v r => Sys2Proof.Machine.execNandi v r s
  | .sgr => Sys2Proof.Machine.execSgr s

end Sys2Proof.Machine
end

