-- ==== Sys2Proof/Machine/Fetch.lean ====
section
/-! DEFINITION. Instruction fetch: the bytes at the `pc`, their decoding, the faults of decode, and what fetching
leaves in IR, MAR and ODR (30_encoding.md R90, 60_exceptions.md R240 to R245, 10_state.md R36). -/

namespace Sys2Proof.Machine

/-- `Fetch8(k)`: the byte at `(pc + k) mod 65536` (00_scope.md R13). -/
def State.fetch8 (s : State) (k : Nat) : Byte := s.memRead (s.pc + BitVec.ofNat 16 k)

/-- Decode what stands at the `pc` (30_encoding.md R90). -/
def State.fetchDecode (s : State) : Except DecodeError Instr :=
  decode (s.fetch8 0) (s.fetch8 1) (s.fetch8 2) (s.fetch8 3)

/-- The fault of a decode error, with the instruction's address (table T-R240). -/
def decodeFault (at_ : Addr) : DecodeError → Fault
  | .invalidOpcode b => .invalidOpcode b at_
  | .invalidRegister b pos => .invalidRegister b pos at_
  | .invalidPort b => .invalidPort b at_

/-- What fetching an instruction of `len` bytes leaves: IR holds the opcode byte, MAR the address of the last byte
fetched and ODR that byte (10_state.md R36). The `pc` still is the instruction's address (00_scope.md R14). -/
def State.latchFetch (s : State) (len : Nat) : State :=
  (s.latchOpcode (s.fetch8 0)).latchRead (s.pc + BitVec.ofNat 16 (len - 1)) (s.fetch8 (len - 1))

/-- The bytes of a program word put at the `pc`, whatever memory is there, and the clock running: what loading an
instruction from outside the machine takes (log 3). -/
def State.loadAtPc (s : State) (b0 b1 b2 b3 : Byte) : State :=
  { ((((s.poke s.pc b0).poke (s.pc + 1) b1).poke (s.pc + 2) b2).poke (s.pc + 3) b3) with halted := false }

end Sys2Proof.Machine
end

