-- ==== Sys2Proof/Machine/Step.lean ====
section
/-! DEFINITION. One step of the machine, and placing an instruction where the next step fetches it. -/

namespace Sys2Proof.Machine

/-- One step. A halted machine stays as it is (10_state.md R40; log 18); a running one decodes what stands at the `pc`,
and either raises the decode fault or runs the instruction (30_encoding.md R90). -/
def step (s : State) : Host.Outcome State Fault Refusal :=
  if s.halted then .next s
  else
    match s.fetchDecode with
    | .ok i => exec i (s.latchFetch i.length)
    | .error e => raise (decodeFault s.pc e)

/-- The state with an instruction of the opcode table stored at the `pc`: four bytes, byte 0 first, every byte above
`nbits` zero. It stands for loading a program from outside the machine (log 3). -/
def State.withFetchWord (s : State) (nbits w : Nat) : State :=
  s.loadAtPc (tableByte nbits w 0) (tableByte nbits w 1) (tableByte nbits w 2) (tableByte nbits w 3)

end Sys2Proof.Machine
end

