-- ==== Sys2Proof/Safety.lean ====
section
/-! DEFINITION. The terms claims are stated in: frames, the machine's invariant, what two states agree on, and the
shape of an instruction's encoding. -/

namespace Sys2Proof.Machine

/-! ### Frames -/

/-- The parts of the state other than the program counter. -/
inductive Part where
  | regs | flags | stack | memory | ports | vram | latch | lines | busRegs | clock | params | draws
deriving DecidableEq, Repr

/-- That a part is the same in two states; memory and stack through the model's read of one byte and one entry. -/
def Part.kept (p : Part) (s t : State) : Prop :=
  match p with
  | .regs => ∀ r, t.reg r = s.reg r
  | .flags => t.zf = s.zf ∧ t.cf = s.cf ∧ t.sf = s.sf
  | .stack => t.sp = s.sp ∧ ∀ i, t.entry i = s.entry i
  | .memory => ∀ a, t.memRead a = s.memRead a
  | .ports => t.outp1 = s.outp1 ∧ t.outp2 = s.outp2
  | .vram => t.v1 = s.v1 ∧ t.v2 = s.v2
  | .latch => t.gl = s.gl
  | .lines => t.ackLine = s.ackLine ∧ t.sgrLine = s.sgrLine
  | .busRegs => t.mar = s.mar ∧ t.idr = s.idr ∧ t.odr = s.odr ∧ t.ir = s.ir
  | .clock => t.halted = s.halted
  | .params => t.cfg = s.cfg
  | .draws => t.draws = s.draws

/-- Every part outside the list is the same. -/
def KeptBut (ps : List Part) (s t : State) : Prop := ∀ p, p ∉ ps → p.kept s t

/-- Every register outside the list is the same. -/
def RegsKeptBut (rs : List Reg) (s t : State) : Prop := ∀ r, r ∉ rs → t.reg r = s.reg r

/-- The zero and sign flags are those of an 8-bit result (40_ldi_and_alu_two_operand.md R111). -/
def ZeroAndSignOf (r : Byte) (t : State) : Prop := t.zf = decide (r = 0x00) ∧ t.sf = r.getLsbD 7

/-- What a two-operand ALU instruction does to registers, ZF, SF and the rest (R113, R114): `left` is what A holds when
the ALU runs, `v` the right operand, `r` the result. -/
def Alu2Did (rd : Reg) (v r : Byte) (len : Addr) (s t : State) : Prop :=
  t.reg rd = r ∧ t.reg .a = r ∧ (rd ≠ .b → t.reg .b = v) ∧ RegsKeptBut [.a, .b, rd] s t ∧
    ZeroAndSignOf r t ∧ t.pc = s.pc + len ∧ KeptBut [.regs, .flags, .draws] s t

/-- The left operand of R113 read literally: destination B reads the right operand, which step 1 has put there (R114). -/
def leftOperand (s : State) (rd : Reg) (v : Byte) : Byte := if rd = .b then v else s.reg rd

/-- What a rotate or shift does to registers and the rest (45_rotates_and_shifts.md R191); flags apart. -/
def Alu1Did (rd : Reg) (r : Byte) (len : Addr) (s t : State) : Prop :=
  t.reg rd = r ∧ t.reg .a = r ∧ RegsKeptBut [.a, rd] s t ∧ t.pc = s.pc + len

/-- CF after a subtraction of `v` from `left`, for each setting of SUB_CARRY (R112). -/
def SubtractCarry (s t : State) (left v : Byte) : Prop :=
  (s.cfg.subCarry = .borrow → t.cf = decide (left.toNat < v.toNat)) ∧
  (s.cfg.subCarry = .notBorrow → t.cf = decide (v.toNat ≤ left.toNat)) ∧
  (s.cfg.subCarry = .chip → t.cf = (if Config.chipBorrows then decide (left.toNat < v.toNat) else decide (v.toNat ≤ left.toNat)))

/-- CF and the count of draws after a logic instruction, for each setting of LOGIC_CARRY: under Any nothing is said of
CF, and one free value has been used (R112). -/
def LogicCarryDid (s t : State) : Prop :=
  (s.cfg.logicCarry = .cleared → t.cf = false ∧ t.draws = s.draws) ∧
  (s.cfg.logicCarry = .unchanged → t.cf = s.cf ∧ t.draws = s.draws) ∧
  (s.cfg.logicCarry = .any → t.draws = s.draws + 1)

/-- CF and the count of draws after a flag-setting rotate or shift that moves `out` out, for each setting of
SHIFT_CARRY (45_rotates_and_shifts.md R190; 92_eei_decisions.md D13). -/
def ShiftCarryDid (s t : State) (out : Bool) : Prop :=
  (s.cfg.shiftCarry = .bitOut → t.cf = out ∧ t.draws = s.draws) ∧
  (s.cfg.shiftCarry = .unchanged → t.cf = s.cf ∧ t.draws = s.draws) ∧
  (s.cfg.shiftCarry = .any → t.draws = s.draws + 1)

/-- `r` is `x` moved one place down, with `top` entering at bit 7. -/
def MovedDown (x r : Byte) (top : Bool) : Prop :=
  r.getLsbD 7 = top ∧ ∀ i, i < 7 → r.getLsbD i = x.getLsbD (i + 1)

/-- `r` is `x` moved one place up, with `low` entering at bit 0. -/
def MovedUp (x r : Byte) (low : Bool) : Prop :=
  r.getLsbD 0 = low ∧ ∀ i, i < 7 → r.getLsbD (i + 1) = x.getLsbD i

/-- The bit that enters on a rotate, for each ROTATE_KIND (45_rotates_and_shifts.md R190). -/
def rotatedIn (s : State) (out : Bool) : Bool := if s.cfg.rotateKind = .circular8 then out else s.cf

/-- The bit that enters on a right shift of `x`, for each SHIFT_FILL (45_rotates_and_shifts.md R190). -/
def shiftedIn (s : State) (x : Byte) : Bool := if s.cfg.shiftFill = .zero then false else x.getLsbD 7

/-! ### Encodings -/

/-- The instruction is these bytes, and these bytes, whatever follows them, are the instruction. -/
def EncodedAs (i : Instr) (bs : List Byte) : Prop := encode i = bs ∧ ∀ rest, decodeList (bs ++ rest) = .ok i

/-- Format N (30_encoding.md R82). -/
def ShapeN (op : Byte) (i : Instr) : Prop := EncodedAs i [op]

/-- Format V. -/
def ShapeV (op : Byte) (mk : Byte → Instr) : Prop := ∀ v, EncodedAs (mk v) [op, v]

/-- Format R, and its fault. -/
def ShapeR (op : Byte) (mk : Reg → Instr) : Prop :=
  (∀ r, EncodedAs (mk r) [op, r.code]) ∧
  ∀ b rest, 7 < b.toNat → decodeList (op :: b :: rest) = .error (.invalidRegister b 1)

/-- Format VR, and its fault. -/
def ShapeVR (op : Byte) (mk : Byte → Reg → Instr) : Prop :=
  (∀ v r, EncodedAs (mk v r) [op, v, r.code]) ∧
  ∀ v b rest, 7 < b.toNat → decodeList (op :: v :: b :: rest) = .error (.invalidRegister b 2)

/-- Format RR, and its faults: byte 1 first. -/
def ShapeRR (op : Byte) (mk : Reg → Reg → Instr) : Prop :=
  (∀ r1 r2, EncodedAs (mk r1 r2) [op, r1.code, r2.code]) ∧
  (∀ b b2 rest, 7 < b.toNat → decodeList (op :: b :: b2 :: rest) = .error (.invalidRegister b 1)) ∧
  ∀ b1 b rest, b1.toNat ≤ 7 → 7 < b.toNat → decodeList (op :: b1 :: b :: rest) = .error (.invalidRegister b 2)

/-- Format A; every operand byte is legal. -/
def ShapeA (op : Byte) (mk : AddrOperand → Instr) : Prop := ∀ a1 a2, EncodedAs (mk ⟨a1, a2⟩) [op, a1, a2]

/-! ### The whole machine -/

/-- What holds of every machine that has been powered up: memory is in canonical form, and both signals to the SDP-1G
are low between instructions (10_state.md R38). -/
def State.Inv (s : State) : Prop := s.mem.wf ∧ s.ackLine = false ∧ s.sgrLine = false

/-- Two states that differ at most in MAR, IDR, ODR and IR (10_state.md R36). -/
def SameButBusRegs (s t : State) : Prop :=
  t = { s with mar := t.mar, idr := t.idr, odr := t.odr, ir := t.ir }

/-- Two states with the same stack read from the top, at stack pointers `k` apart, and all else the same (R31). -/
def StackTurned (k : Byte) (s t : State) : Prop :=
  t.sp = s.sp + k ∧ (∀ i, t.entry (i + k) = s.entry i) ∧ t = { s with sp := t.sp, sk := t.sk }

/-- Two outcomes alike: both go on, to states so related, or both stop for the same reason. -/
def OutcomesAlike (R : State → State → Prop) (x y : Result) : Prop :=
  (∃ s t, x = .next s ∧ y = .next t ∧ R s t) ∨ (∃ f, x = .fault f ∧ y = .fault f) ∨
    (∃ f, x = .refused f ∧ y = .refused f)

/-- `Push16` of each value in turn. -/
def State.pushAll (s : State) (es : List Entry) : State := es.foldl State.push16 s

/-- The values `n` times `Pop16` returns, in order. -/
def State.popped (s : State) : Nat → List Entry
  | 0 => []
  | n + 1 => s.top :: s.pop16.popped n

/-- The stack after `n` times `Pop16`. -/
def State.popAll (s : State) : Nat → State
  | 0 => s
  | n + 1 => s.pop16.popAll n

end Sys2Proof.Machine
end

