-- ==== Sys2Proof/Certificates/Slice0/Obligations.lean ====
section
/-! DEFINITION. The statements for the provers. -/

open Sys2Proof Sys2Proof.Machine

/-! ### Encoding -/

/-- Decoding the bytes of any instruction, whatever follows them, gives the instruction back (30_encoding.md R82, R90).
It rests on the spec's own decisions D1, D2 (log 24). -/
def Obligations.DecodeOfEncode : Prop :=
  ∀ (i : Instr) (rest : List Byte), decodeList (encode i ++ rest) = .ok i

/-- Bytes that decode are the instruction's own encoding, of the length the opcode byte alone tells (R83, R90).
It rests on the spec's own decisions D1, D2 (log 24). -/
def Obligations.EncodeOfDecode : Prop :=
  ∀ (b0 b1 b2 b3 : Byte) (i : Instr), decode b0 b1 b2 b3 = .ok i →
    [b0, b1, b2, b3].take i.length = encode i ∧ (encode i).length = i.length ∧
      (formatOf b0).map Format.length = some i.length

/-- Four bytes decode exactly when they are well formed: a defined opcode, register bytes 0x00 to 0x07, port bytes 0x01
or 0x02 (R94). It rests on the spec's own decisions D4 to D6 (log 20). -/
def Obligations.DecodeAcceptsWellFormedBytes : Prop :=
  ∀ b0 b1 b2 b3 : Byte, (∃ i, decode b0 b1 b2 b3 = .ok i) ↔ wellFormedBytes [b0, b1, b2, b3] = true

/-- The 217 other values of the opcode byte, in the ranges R93 lists, are no instruction.
It rests on the spec's own decision D6 (log 20). -/
def Obligations.UndefinedOpcodesAreTheListedOnes : Prop :=
  ∀ b0 : Byte,
    ((∀ b1 b2 b3, decode b0 b1 b2 b3 = .error (.invalidOpcode b0)) ↔
      b0 = 0x00 ∨ (0x08 ≤ b0 ∧ b0 ≤ 0x0f) ∨ (0x12 ≤ b0 ∧ b0 ≤ 0x1f) ∨ (0x21 ≤ b0 ∧ b0 ≤ 0x3f) ∨
      (0x43 ≤ b0 ∧ b0 ≤ 0x4f) ∨ (0x52 ≤ b0 ∧ b0 ≤ 0x6f) ∨ (0x72 ≤ b0 ∧ b0 ≤ 0x84) ∨ b0 = 0x86 ∨ b0 = 0x87 ∨
      (0x8b ≤ b0 ∧ b0 ≤ 0x9f) ∨ (0xa2 ≤ b0 ∧ b0 ≤ 0xaf) ∨ (0xb2 ≤ b0 ∧ b0 ≤ 0xb7) ∨ (0xb9 ≤ b0 ∧ b0 ≤ 0xc2) ∨
      (0xc4 ≤ b0 ∧ b0 ≤ 0xcf) ∨ (0xd2 ≤ b0 ∧ b0 ≤ 0xdf) ∨ (0xe8 ≤ b0 ∧ b0 ≤ 0xfd))

/-- A few words written out from the spec's encodings: the source's one example, and one of each other format. -/
def Obligations.SpecWordsDecode : Prop :=
  decodeList [0xc3, 0x0f, 0x00] = .ok (.ldi 0x0f .a) ∧ decodeList [0x89, 0xea, 0x05] = .ok (.adi 0xea .f) ∧
  decodeList [0x71, 0x06, 0x03] = .ok (.add .g .d) ∧ decodeList [0x88, 0x06, 0x07] = .ok (.xor .g .h) ∧
  decodeList [0x01, 0x34, 0x12] = .ok (.jmp ⟨0x34, 0x12⟩) ∧ decodeList [0x40, 0x7e] = .ok (.phi 0x7e) ∧
  decodeList [0x41, 0x04] = .ok (.push .e) ∧ decodeList [0x10, 0x10, 0x80, 0x06] = .ok (.load ⟨0x10, 0x80⟩ .g) ∧
  decodeList [0x11, 0x03, 0x00, 0x80] = .ok (.store .d ⟨0x00, 0x80⟩) ∧
  decodeList [0xb0, 0x01, 0x02] = .ok (.in_ .p1 .c) ∧ decodeList [0xb1, 0x02, 0x02] = .ok (.out .c .p2) ∧
  decodeList [0xb8] = .ok .sgr

/-- An Address operand's value: the first byte is the low one under LowFirst, the high one under HighFirst (R88).
It rests on the spec's own decision D3 (log 5). -/
def Obligations.AddressBytesInOrder : Prop :=
  ∀ t : AddrOperand, (addr16 .lowFirst t).toNat = 256 * t.a2.toNat + t.a1.toNat ∧
    (addr16 .highFirst t).toNat = 256 * t.a1.toNat + t.a2.toNat

/-! ### Steps, faults, halting -/

/-- A running machine whose bytes at the `pc` decode to `i` runs `i`; before it, fetching has left the opcode byte in
IR and the last byte of the instruction, with its address, in ODR and MAR, and nothing else.
It rests on the spec's own decision D37 (log 16). -/
def Obligations.StepRunsTheDecodedInstruction : Prop :=
  ∀ (s : State) (i : Instr), s.halted = false →
    decode (s.memRead s.pc) (s.memRead (s.pc + 1)) (s.memRead (s.pc + 2)) (s.memRead (s.pc + 3)) = .ok i →
    ∃ s', step s = exec i s' ∧
      s' = { s with ir := s.memRead s.pc, mar := s.pc + BitVec.ofNat 16 (i.length - 1), odr := s.memRead (s.pc + BitVec.ofNat 16 (i.length - 1)) }

/-- An undefined opcode byte stops a running machine with InvalidOpcode, recording the byte and its address (R241).
It rests on the spec's own decision D6 (log 20). -/
def Obligations.UndefinedOpcodeStops : Prop :=
  ∀ s : State, s.halted = false → formatOf (s.memRead s.pc) = none →
    step s = .fault (.invalidOpcode (s.memRead s.pc) s.pc)

/-- The operand bytes are checked in ascending position: `in` its port byte before its register byte, `out` its
register byte before its port byte, and each with its fault at the instruction's address (R242, R243, R245).
It rests on the spec's own decisions D5, D7 (log 20). -/
def Obligations.PortInstructionsCheckInOrder : Prop :=
  ∀ s : State, s.halted = false →
    (s.memRead s.pc = 0xb0 →
      (s.memRead (s.pc + 1) ≠ 0x01 → s.memRead (s.pc + 1) ≠ 0x02 →
        step s = .fault (.invalidPort (s.memRead (s.pc + 1)) s.pc)) ∧
      (s.memRead (s.pc + 1) = 0x01 ∨ s.memRead (s.pc + 1) = 0x02 → 7 < (s.memRead (s.pc + 2)).toNat →
        step s = .fault (.invalidRegister (s.memRead (s.pc + 2)) 2 s.pc))) ∧
    (s.memRead s.pc = 0xb1 →
      (7 < (s.memRead (s.pc + 1)).toNat → step s = .fault (.invalidRegister (s.memRead (s.pc + 1)) 1 s.pc)) ∧
      ((s.memRead (s.pc + 1)).toNat ≤ 7 → s.memRead (s.pc + 2) ≠ 0x01 → s.memRead (s.pc + 2) ≠ 0x02 →
        step s = .fault (.invalidPort (s.memRead (s.pc + 2)) s.pc)))

/-- Whatever fault a step raises, it is one of the four of table T-R240 for the table's reason, with the values the
table records (R240). It rests on the spec's own decisions D4 to D7, D25 (logs 20, 34). -/
def Obligations.FaultsHaveTheirReasons : Prop :=
  ∀ (s : State) (f : Fault), step s = .fault f → s.halted = false ∧
    match f with
    | .invalidOpcode b at_ => at_ = s.pc ∧ b = s.memRead s.pc ∧ formatOf b = none
    | .invalidRegister b pos at_ =>
      at_ = s.pc ∧ (pos = 1 ∨ pos = 2 ∨ pos = 3) ∧ b = s.memRead (s.pc + BitVec.ofNat 16 pos) ∧ 7 < b.toNat ∧
        ∃ fmt, formatOf (s.memRead s.pc) = some fmt ∧ fmt.operandBytes[pos - 1]? = some .reg
    | .invalidPort b at_ =>
      at_ = s.pc ∧ b ≠ 0x01 ∧ b ≠ 0x02 ∧
        (s.memRead s.pc = 0xb0 ∧ b = s.memRead (s.pc + 1) ∨ s.memRead s.pc = 0xb1 ∧ b = s.memRead (s.pc + 2))
    | .storeToROM ea at_ =>
      at_ = s.pc ∧ s.memRead s.pc = 0x11 ∧ (s.memRead (s.pc + 1)).toNat ≤ 7 ∧
        ea = s.address ⟨s.memRead (s.pc + 2), s.memRead (s.pc + 3)⟩ ∧ ea.toNat < 0x8000

/-- Every instruction runs in every state under ALU_ALIAS = Sequence, but for a `store` to ROM, which raises StoreToROM.
It rests on the spec's own decisions D16, D25 (logs 9, 20). -/
def Obligations.EveryInstructionRuns : Prop :=
  ∀ (i : Instr) (s : State), s.cfg.aluAlias = .sequence →
    (∃ t, exec i s = .next t) ∨
    ∃ r x, i = .store r x ∧ (s.address x).toNat < 0x8000 ∧ exec i s = .fault (.storeToROM (s.address x) s.pc)

/-- A halted machine's step changes nothing (10_state.md R40). -/
def Obligations.HaltedMachineStays : Prop := ∀ s : State, s.halted = true → step s = .next s

/-- A running machine stops running by `hlt` only (60_exceptions.md R270).
It rests on the spec's own decision D29 (log 18). -/
def Obligations.OnlyHltStopsTheClock : Prop :=
  ∀ s t : State, step s = .next t → s.halted = false → (t.halted = true ↔ s.memRead s.pc = 0xff)

/-- What a step leaves in IR, MAR, ODR and IDR (10_state.md R36, which the spec marks as its decision D37; log 16). -/
def Obligations.BusRegistersAfterAStep : Prop :=
  ∀ (s t : State) (i : Instr), s.halted = false →
    decode (s.memRead s.pc) (s.memRead (s.pc + 1)) (s.memRead (s.pc + 2)) (s.memRead (s.pc + 3)) = .ok i →
    step s = .next t →
    t.ir = s.memRead s.pc ∧
    match i with
    | .load x _ => t.mar = s.address x ∧ t.odr = s.memRead (s.address x) ∧ t.idr = s.idr
    | .store r x => t.mar = s.address x ∧ t.odr = s.memRead (s.pc + 3) ∧ t.idr = s.reg r
    | _ => t.mar = s.pc + BitVec.ofNat 16 (i.length - 1) ∧ t.odr = s.memRead t.mar ∧ t.idr = s.idr

/-! ### LDI and the two-operand ALU instructions -/

/-- `ldi` (R115). -/
def Obligations.LdiLoadsItsConstant : Prop :=
  ShapeVR 0xc3 .ldi ∧ ∀ (v : Byte) (r : Reg) (s : State), ∃ t, exec (.ldi v r) s = .next t ∧
    t.reg r = v ∧ RegsKeptBut [r] s t ∧ t.pc = s.pc + 3 ∧ KeptBut [.regs] s t

/-- `adi` and `sbi` (R116, R117), destination B included as R114 reads it.
It rests on the spec's own decisions D8 to D11, D16 (logs 6, 9, 23, 29). -/
def Obligations.AdiAndSbiCompute : Prop :=
  ShapeVR 0x89 .adi ∧ ShapeVR 0x8a .sbi ∧
  ∀ (v : Byte) (r : Reg) (s : State), (s.cfg.aluAlias = .sequence ∨ r ≠ .b) →
    (∃ t, exec (.adi v r) s = .next t ∧ Alu2Did r v (leftOperand s r v + v) 3 s t ∧
      t.cf = decide (256 ≤ (leftOperand s r v).toNat + v.toNat) ∧ t.draws = s.draws) ∧
    (∃ t, exec (.sbi v r) s = .next t ∧ Alu2Did r v (leftOperand s r v - v) 3 s t ∧
      SubtractCarry s t (leftOperand s r v) v ∧ t.draws = s.draws)

/-- `add` and `sub` (R118, R119), every pair of registers.
It rests on the spec's own decisions D8 to D11, D16 (logs 6, 9, 23, 29). -/
def Obligations.AddAndSubCompute : Prop :=
  ShapeRR 0x71 .add ∧ ShapeRR 0x70 .sub ∧
  ∀ (rd rs : Reg) (s : State), (s.cfg.aluAlias = .sequence ∨ rd ≠ .b ∨ rs = .b) →
    (∃ t, exec (.add rd rs) s = .next t ∧ Alu2Did rd (s.reg rs) (leftOperand s rd (s.reg rs) + s.reg rs) 3 s t ∧
      t.cf = decide (256 ≤ (leftOperand s rd (s.reg rs)).toNat + (s.reg rs).toNat) ∧ t.draws = s.draws) ∧
    (∃ t, exec (.sub rd rs) s = .next t ∧ Alu2Did rd (s.reg rs) (leftOperand s rd (s.reg rs) - s.reg rs) 3 s t ∧
      SubtractCarry s t (leftOperand s rd (s.reg rs)) (s.reg rs) ∧ t.draws = s.draws)

/-- `xor` and `nand` (R120, R121), every pair of registers.
It rests on the spec's own decisions D8, D9, D12, D16 (logs 7, 9, 23, 29). -/
def Obligations.XorAndNandCompute : Prop :=
  ShapeRR 0x88 .xor ∧ ShapeRR 0x85 .nand ∧
  ∀ (rd rs : Reg) (s : State), (s.cfg.aluAlias = .sequence ∨ rd ≠ .b ∨ rs = .b) →
    (∃ t, exec (.xor rd rs) s = .next t ∧
      Alu2Did rd (s.reg rs) (leftOperand s rd (s.reg rs) ^^^ s.reg rs) 3 s t ∧ LogicCarryDid s t) ∧
    (∃ t, exec (.nand rd rs) s = .next t ∧
      Alu2Did rd (s.reg rs) ((leftOperand s rd (s.reg rs) &&& s.reg rs) ^^^ 0xff) 3 s t ∧ LogicCarryDid s t)

/-- `xri` and `nandi` (47_xri_nandi.md R220, R221).
It rests on the spec's own decisions D8, D9, D12, D16 (logs 7, 9, 23, 29). -/
def Obligations.XriAndNandiCompute : Prop :=
  ShapeVR 0xd0 .xri ∧ ShapeVR 0xd1 .nandi ∧
  ∀ (v : Byte) (r : Reg) (s : State), (s.cfg.aluAlias = .sequence ∨ r ≠ .b) →
    (∃ t, exec (.xri v r) s = .next t ∧ Alu2Did r v (leftOperand s r v ^^^ v) 3 s t ∧ LogicCarryDid s t) ∧
    (∃ t, exec (.nandi v r) s = .next t ∧ Alu2Did r v ((leftOperand s r v &&& v) ^^^ 0xff) 3 s t ∧ LogicCarryDid s t)

/-- `inc` and `dcr` (44_dcr_inc_hlt_nop.md R181, R182): the right operand is 0x01.
It rests on the spec's own decisions D8 to D11, D16, D17 (logs 6, 9, 23, 29). -/
def Obligations.IncAndDcrCompute : Prop :=
  ShapeR 0xa1 .inc ∧ ShapeR 0xa0 .dcr ∧
  ∀ (r : Reg) (s : State), (s.cfg.aluAlias = .sequence ∨ r ≠ .b) →
    (∃ t, exec (.inc r) s = .next t ∧ Alu2Did r 0x01 (leftOperand s r 0x01 + 1) 2 s t ∧
      t.cf = decide (leftOperand s r 0x01 = 0xff) ∧ t.draws = s.draws) ∧
    (∃ t, exec (.dcr r) s = .next t ∧ Alu2Did r 0x01 (leftOperand s r 0x01 - 1) 2 s t ∧
      SubtractCarry s t (leftOperand s r 0x01) 0x01 ∧ t.draws = s.draws)

/-- Under ALU_ALIAS = Refuse, and only then, the ten two-operand ALU instructions are given no meaning with destination
B, unless the right operand is register B itself (R114). It rests on the spec's own decision D16 (log 9). -/
def Obligations.DestinationBIsRefusedOnlyUnderRefuse : Prop :=
  ∀ (i : Instr) (s : State) (f : Refusal), exec i s = .refused f ↔
    s.cfg.aluAlias = .refuse ∧ f = .aluDestinationB ∧
      ((∃ v, i = .adi v .b ∨ i = .sbi v .b ∨ i = .xri v .b ∨ i = .nandi v .b) ∨ i = .inc .b ∨ i = .dcr .b ∨
        ∃ rs, rs ≠ .b ∧ (i = .add .b rs ∨ i = .sub .b rs ∨ i = .xor .b rs ∨ i = .nand .b rs))

/-! ### Rotates and shifts -/

/-- `ror` and `rol` (45_rotates_and_shifts.md R192, R193) for each ROTATE_KIND and SHIFT_CARRY.
It rests on the spec's own decisions D8, D9, D13, D14, D18 (logs 8, 23, 29). -/
def Obligations.RorAndRolRotate : Prop :=
  ShapeR 0xe0 .ror ∧ ShapeR 0xe1 .rol ∧
  ∀ (r : Reg) (s : State),
    (∃ t x, exec (.ror r) s = .next t ∧ MovedDown (s.reg r) x (rotatedIn s ((s.reg r).getLsbD 0)) ∧
      Alu1Did r x 2 s t ∧ ZeroAndSignOf x t ∧ ShiftCarryDid s t ((s.reg r).getLsbD 0) ∧
      KeptBut [.regs, .flags, .draws] s t) ∧
    (∃ t x, exec (.rol r) s = .next t ∧ MovedUp (s.reg r) x (rotatedIn s ((s.reg r).getLsbD 7)) ∧
      Alu1Did r x 2 s t ∧ ZeroAndSignOf x t ∧ ShiftCarryDid s t ((s.reg r).getLsbD 7) ∧
      KeptBut [.regs, .flags, .draws] s t)

/-- `sfr` and `sfl` (R196, R197) for each SHIFT_FILL and SHIFT_CARRY.
It rests on the spec's own decisions D8, D9, D13, D15, D18 (logs 8, 23, 29). -/
def Obligations.SfrAndSflShift : Prop :=
  ShapeR 0xe4 .sfr ∧ ShapeR 0xe5 .sfl ∧
  ∀ (r : Reg) (s : State),
    (∃ t x, exec (.sfr r) s = .next t ∧ MovedDown (s.reg r) x (shiftedIn s (s.reg r)) ∧
      Alu1Did r x 2 s t ∧ ZeroAndSignOf x t ∧ ShiftCarryDid s t ((s.reg r).getLsbD 0) ∧
      KeptBut [.regs, .flags, .draws] s t) ∧
    (∃ t x, exec (.sfl r) s = .next t ∧ MovedUp (s.reg r) x false ∧
      Alu1Did r x 2 s t ∧ ZeroAndSignOf x t ∧ ShiftCarryDid s t ((s.reg r).getLsbD 7) ∧
      KeptBut [.regs, .flags, .draws] s t)

/-- `rri` and `rli` (R194, R195): the constant is rotated; no flag changes.
It rests on the spec's own decisions D14, D18 (logs 8, 23). -/
def Obligations.RriAndRliRotateTheConstant : Prop :=
  ShapeVR 0xe2 .rri ∧ ShapeVR 0xe3 .rli ∧
  ∀ (v : Byte) (r : Reg) (s : State),
    (∃ t x, exec (.rri v r) s = .next t ∧ MovedDown v x (rotatedIn s (v.getLsbD 0)) ∧ Alu1Did r x 3 s t ∧
      KeptBut [.regs] s t) ∧
    (∃ t x, exec (.rli v r) s = .next t ∧ MovedUp v x (rotatedIn s (v.getLsbD 7)) ∧ Alu1Did r x 3 s t ∧
      KeptBut [.regs] s t)

/-- `sli` and `sri` (R198, R199): the constant is shifted; no flag changes.
It rests on the spec's own decisions D15, D18 (logs 8, 23). -/
def Obligations.SliAndSriShiftTheConstant : Prop :=
  ShapeVR 0xe6 .sli ∧ ShapeVR 0xe7 .sri ∧
  ∀ (v : Byte) (r : Reg) (s : State),
    (∃ t x, exec (.sli v r) s = .next t ∧ MovedUp v x false ∧ Alu1Did r x 3 s t ∧ KeptBut [.regs] s t) ∧
    (∃ t x, exec (.sri v r) s = .next t ∧ MovedDown v x (shiftedIn s v) ∧ Alu1Did r x 3 s t ∧ KeptBut [.regs] s t)

/-! ### Control transfer -/

/-- `jmp` (41_jumps_call_rts.md R140). -/
def Obligations.JmpJumps : Prop :=
  ShapeA 0x01 .jmp ∧ ∀ (x : AddrOperand) (s : State), ∃ t, exec (.jmp x) s = .next t ∧
    t.pc = s.address x ∧ KeptBut [] s t

/-- `jc` and `jnc` (R141, R142). -/
def Obligations.CarryJumps : Prop :=
  ShapeA 0x02 .jc ∧ ShapeA 0x03 .jnc ∧ ∀ (x : AddrOperand) (s : State),
    (∃ t, exec (.jc x) s = .next t ∧ t.pc = (if s.cf = true then s.address x else s.pc + 3) ∧ KeptBut [] s t) ∧
    (∃ t, exec (.jnc x) s = .next t ∧ t.pc = (if s.cf = false then s.address x else s.pc + 3) ∧ KeptBut [] s t)

/-- `jz` and `jnz` (R143, R144). -/
def Obligations.ZeroJumps : Prop :=
  ShapeA 0x04 .jz ∧ ShapeA 0x05 .jnz ∧ ∀ (x : AddrOperand) (s : State),
    (∃ t, exec (.jz x) s = .next t ∧ t.pc = (if s.zf = true then s.address x else s.pc + 3) ∧ KeptBut [] s t) ∧
    (∃ t, exec (.jnz x) s = .next t ∧ t.pc = (if s.zf = false then s.address x else s.pc + 3) ∧ KeptBut [] s t)

/-- `jm` and `jp` (R145, R146). -/
def Obligations.SignJumps : Prop :=
  ShapeA 0x06 .jm ∧ ShapeA 0x07 .jp ∧ ∀ (x : AddrOperand) (s : State),
    (∃ t, exec (.jm x) s = .next t ∧ t.pc = (if s.sf = true then s.address x else s.pc + 3) ∧ KeptBut [] s t) ∧
    (∃ t, exec (.jp x) s = .next t ∧ t.pc = (if s.sf = false then s.address x else s.pc + 3) ∧ KeptBut [] s t)

/-- `call` (R147): the address of the next instruction on the stack, whole, in one entry.
It rests on the spec's own decisions D20, D23 (logs 21, 26). -/
def Obligations.CallPushesTheReturnAddress : Prop :=
  ShapeA 0x50 .call ∧ ∀ (x : AddrOperand) (s : State), ∃ t, exec (.call x) s = .next t ∧
    t.pc = s.address x ∧ t.sp = s.sp + 1 ∧ t.top.hi ++ t.top.lo = s.pc + 3 ∧
    (∀ i, i ≠ t.sp → t.entry i = s.entry i) ∧ KeptBut [.stack] s t

/-- `rts` (41_jumps_call_rts.md R148): the whole top entry, one a `phi` or `push` wrote too. That SP goes down by one and
no entry changes rests on the spec's own decision D20 (log 21); the `rts` on a pushed byte is log 22. -/
def Obligations.RtsPopsThePc : Prop :=
  ShapeN 0x51 .rts ∧ ∀ s : State, ∃ t, exec .rts s = .next t ∧
    t.pc = s.top.hi ++ s.top.lo ∧ t.sp = s.sp - 1 ∧ (∀ i, t.entry i = s.entry i) ∧ KeptBut [.stack] s t

/-- An `rts` whose stack is as a `call` left it resumes after the `call`, with the stack pointer as before the `call`
(R150). It rests on the spec's own decisions D20, D23 (logs 21, 26). -/
def Obligations.RtsReturnsFromCall : Prop :=
  ∀ (x : AddrOperand) (s t t' : State), exec (.call x) s = .next t → t'.sp = t.sp → t'.sk = t.sk →
    ∃ u, exec .rts t' = .next u ∧ u.pc = s.pc + 3 ∧ u.sp = s.sp

/-! ### Stack -/

/-- `phi` and `push` (42_stack_phi_push_pull.md R161, R162): the byte in the lower half of a new top entry; the upper
half is PUSH8_HIGH's, of which nothing is said, and one free value is used.
It rests on the spec's own decisions D20, D21 (logs 11, 21). -/
def Obligations.PhiAndPushPushAByte : Prop :=
  ShapeV 0x40 .phi ∧ ShapeR 0x41 .push ∧ ∀ (v : Byte) (r : Reg) (s : State),
    (∃ t, exec (.phi v) s = .next t ∧ t.top.lo = v ∧ t.sp = s.sp + 1 ∧ (∀ i, i ≠ t.sp → t.entry i = s.entry i) ∧
      t.pc = s.pc + 2 ∧ t.draws = s.draws + 1 ∧ KeptBut [.stack, .draws] s t) ∧
    (∃ t, exec (.push r) s = .next t ∧ t.top.lo = s.reg r ∧ t.sp = s.sp + 1 ∧
      (∀ i, i ≠ t.sp → t.entry i = s.entry i) ∧ t.pc = s.pc + 2 ∧ t.draws = s.draws + 1 ∧
      KeptBut [.stack, .draws] s t)

/-- `pull` (42_stack_phi_push_pull.md R163). Bits 7:0 are the spec's own decision D22 (log 22), SP minus one its decision
D20 (log 21), the register fault D4 (log 20). -/
def Obligations.PullPopsAByte : Prop :=
  ShapeR 0x42 .pull ∧ ∀ (r : Reg) (s : State), ∃ t, exec (.pull r) s = .next t ∧
    t.reg r = s.top.lo ∧ RegsKeptBut [r] s t ∧ t.sp = s.sp - 1 ∧ (∀ i, t.entry i = s.entry i) ∧
    t.pc = s.pc + 2 ∧ KeptBut [.regs, .stack] s t

/-- A `pull` that pops an entry written by `phi` or `push` returns exactly the byte that was pushed (R160).
It rests on the spec's own decisions D20 to D22 (logs 11, 21, 22). -/
def Obligations.PullReturnsThePushedByte : Prop :=
  ∀ (i : Instr) (v : Byte) (s t t' : State) (r' : Reg),
    (i = .phi v ∨ ∃ r, i = .push r ∧ v = s.reg r) → exec i s = .next t → t'.sp = t.sp → t'.sk = t.sk →
    ∃ u, exec (.pull r') t' = .next u ∧ u.reg r' = v ∧ u.sp = s.sp

/-- Up to 256 pushed values come back in reverse order, and the stack pointer is as it was (10_state.md R31).
It rests on the spec's own decision D20 (log 21). -/
def Obligations.StackIsLastInFirstOut : Prop :=
  ∀ (s : State) (es : List Entry), es.length ≤ 256 →
    (s.pushAll es).popped es.length = es.reverse ∧ ((s.pushAll es).popAll es.length).sp = s.sp

/-- The stack is a ring: the 257th push overwrites the oldest value, and the 257th pop returns the first popped value
again (10_state.md R31). It rests on the spec's own decision D20 (log 21). -/
def Obligations.StackWrapsAfter256Entries : Prop :=
  ∀ (s : State) (oldest : Entry) (es : List Entry), es.length = 256 →
    (s.pushAll (oldest :: es)).popped 257 = es.reverse ++ es.reverse.take 1

/-! ### MOVE, LOAD, STORE -/

/-- `move` (43_move_load_store.md R170) for each MOVE_DIR. It rests on the spec's own decision D19 (log 10). -/
def Obligations.MoveCopies : Prop :=
  ShapeRR 0x20 .move ∧ ∀ (r1 r2 : Reg) (s : State), ∃ t, exec (.move r1 r2) s = .next t ∧
    (s.cfg.moveDir = .srcFirst → t.reg r2 = s.reg r1 ∧ RegsKeptBut [r2] s t) ∧
    (s.cfg.moveDir = .dstFirst → t.reg r1 = s.reg r2 ∧ RegsKeptBut [r1] s t) ∧
    t.pc = s.pc + 3 ∧ KeptBut [.regs] s t

/-- `load` (43_move_load_store.md R171), from ROM and from RAM alike. That the access may change MAR and ODR and leaves
IDR and IR rests on the spec's own decision D37 (10_state.md R36; log 16), the register fault on D4 (log 20). -/
def Obligations.LoadReadsAByte : Prop :=
  (∀ a1 a2 r, EncodedAs (.load ⟨a1, a2⟩ r) [0x10, a1, a2, r.code]) ∧
  (∀ a1 a2 b rest, 7 < b.toNat → decodeList (0x10 :: a1 :: a2 :: b :: rest) = .error (.invalidRegister b 3)) ∧
  ∀ (x : AddrOperand) (r : Reg) (s : State), ∃ t, exec (.load x r) s = .next t ∧
    t.reg r = s.memRead (s.address x) ∧ RegsKeptBut [r] s t ∧ t.pc = s.pc + 4 ∧
    t.idr = s.idr ∧ t.ir = s.ir ∧ KeptBut [.regs, .busRegs] s t

/-- `store` (43_move_load_store.md R172): to RAM it writes that one byte; to ROM it raises StoreToROM, which is the spec's
own decision D25 (20_memory.md R55, 60_exceptions.md R244; log 20). That the access may change MAR and IDR and leaves
ODR and IR rests on its decision D37 (log 16), the register fault on D4 (log 20). -/
def Obligations.StoreWritesOneByteOfRam : Prop :=
  (∀ r a1 a2, EncodedAs (.store r ⟨a1, a2⟩) [0x11, r.code, a1, a2]) ∧
  (∀ b a1 a2 rest, 7 < b.toNat → decodeList (0x11 :: b :: a1 :: a2 :: rest) = .error (.invalidRegister b 1)) ∧
  ∀ (r : Reg) (x : AddrOperand) (s : State),
    (0x8000 ≤ (s.address x).toNat → ∃ t, exec (.store r x) s = .next t ∧
      t.memRead (s.address x) = s.reg r ∧ (∀ a, a ≠ s.address x → t.memRead a = s.memRead a) ∧ t.pc = s.pc + 4 ∧
      t.odr = s.odr ∧ t.ir = s.ir ∧ KeptBut [.memory, .busRegs] s t) ∧
    ((s.address x).toNat < 0x8000 → exec (.store r x) s = .fault (.storeToROM (s.address x) s.pc))

/-- A stored byte is what the next `load` of its address and the next fetch from it read, with nothing in between
(20_memory.md R63, R64). It rests on the spec's own decisions D26, D35 (logs 30, 36). -/
def Obligations.StoredByteIsSeenAtOnce : Prop :=
  ∀ (r r' : Reg) (x : AddrOperand) (s t : State), exec (.store r x) s = .next t →
    (∃ u, exec (.load x r') t = .next u ∧ u.reg r' = s.reg r) ∧
    (∀ k, t.pc + BitVec.ofNat 16 k = s.address x → t.fetch8 k = s.reg r)

/-! ### HLT, NOP, IN, OUT, SGR -/

/-- `hlt` (44_dcr_inc_hlt_nop.md R184). It rests on the spec's own decision D29 (logs 18, 19). -/
def Obligations.HltHalts : Prop :=
  ShapeN 0xff .hlt ∧ ∀ s : State, ∃ t, exec .hlt s = .next t ∧
    t.halted = true ∧ t.pc = s.pc + 1 ∧ KeptBut [.clock] s t ∧ ∀ n, Sys2Proof.core.run n t = .next t

/-- `nop` (R183): a step that fetches it changes the `pc`, MAR, IR and ODR only. -/
def Obligations.NopDoesNothing : Prop :=
  ShapeN 0xfe .nop ∧ (∀ s : State, ∃ t, exec .nop s = .next t ∧ t.pc = s.pc + 1 ∧ KeptBut [] s t) ∧
  ∀ s : State, s.halted = false → s.memRead s.pc = 0xfe → ∃ t, step s = .next t ∧ t.pc = s.pc + 1 ∧
    t.mar = s.pc ∧ t.ir = 0xfe ∧ t.odr = 0xfe ∧ t.idr = s.idr ∧ KeptBut [.busRegs] s t

/-- `in` (46_in_out.md R210): the register takes the byte the environment presents at this read, whatever it is; the
next read is a draw of its own (log 14). It rests on the spec's own decision D30 (log 14). -/
def Obligations.InReadsThePort : Prop :=
  (∀ p r, EncodedAs (.in_ p r) [0xb0, p.code, r.code]) ∧
  (∀ b b2 rest, b ≠ 0x01 → b ≠ 0x02 → decodeList (0xb0 :: b :: b2 :: rest) = .error (.invalidPort b)) ∧
  (∀ (p : Port) b rest, 7 < b.toNat → decodeList (0xb0 :: p.code :: b :: rest) = .error (.invalidRegister b 2)) ∧
  ∀ (p : Port) (r : Reg) (s : State), ∃ t, exec (.in_ p r) s = .next t ∧
    t.reg r = Config.inputOracle p s.draws ∧ t.draws = s.draws + 1 ∧ RegsKeptBut [r] s t ∧ t.pc = s.pc + 3 ∧
    KeptBut [.regs, .draws] s t

/-- `out` (46_in_out.md R211) with what the SDP-1G does on the pulse (60_exceptions.md R262), for each ACK_SCOPE.
It rests on the spec's own decisions D31, D32 (logs 12, 35). -/
def Obligations.OutWritesThePortAndPulses : Prop :=
  (∀ r p, EncodedAs (.out r p) [0xb1, r.code, p.code]) ∧
  (∀ b b2 rest, 7 < b.toNat → decodeList (0xb1 :: b :: b2 :: rest) = .error (.invalidRegister b 1)) ∧
  (∀ (r : Reg) b rest, b ≠ 0x01 → b ≠ 0x02 → decodeList (0xb1 :: r.code :: b :: rest) = .error (.invalidPort b)) ∧
  ∀ (r : Reg) (p : Port) (s : State), ∃ t, exec (.out r p) s = .next t ∧
    t.outp1 = (if p = .p1 then s.reg r else s.outp1) ∧ t.outp2 = (if p = .p2 then s.reg r else s.outp2) ∧
    (s.cfg.ackScope = .anyOut ∨ p = .p1 →
      t.v1 = (if t.outp2 = 0xff then t.outp1 else s.v1) ∧ t.v2 = (if t.outp2 = 0xfe then t.outp1 else s.v2) ∧
      t.ackLine = false) ∧
    (s.cfg.ackScope = .port1Only ∧ p = .p2 → t.v1 = s.v1 ∧ t.v2 = s.v2 ∧ t.ackLine = s.ackLine) ∧
    t.sgrLine = s.sgrLine ∧ t.pc = s.pc + 3 ∧ KeptBut [.ports, .vram, .lines] s t

/-- `sgr` (48_sgr.md R230) with what the SDP-1G does on the pulse (60_exceptions.md R264).
It rests on the spec's own decision D33 (log 13). -/
def Obligations.SgrLatchesTheVram : Prop :=
  ShapeN 0xb8 .sgr ∧ ∀ s : State, ∃ t, exec .sgr s = .next t ∧
    t.gl = s.v2 ++ s.v1 ∧ t.sgrLine = false ∧ t.ackLine = s.ackLine ∧ t.pc = s.pc + 1 ∧ KeptBut [.latch, .lines] s t

/-- Selector to port 2, then a byte to port 1, puts the byte into the selected VRAM register under either ACK_SCOPE,
and leaves the other as it was (70_reset_and_hazards.md R291).
It rests on the spec's own decisions D31, D32 (logs 12, 35). -/
def Obligations.SelectorThenByteFillsTheVram : Prop :=
  ∀ (r r' : Reg) (s t u : State), exec (.out r .p2) s = .next t → exec (.out r' .p1) t = .next u →
    (s.reg r = 0xff → u.v1 = s.reg r' ∧ u.v2 = s.v2) ∧ (s.reg r = 0xfe → u.v2 = s.reg r' ∧ u.v1 = s.v1) ∧
    (s.reg r ≠ 0xff → s.reg r ≠ 0xfe → u.v1 = s.v1 ∧ u.v2 = s.v2)

/-- The pins and LEDs: under a pin map that gives each latched bit a pin of its own, the pin a bit is mapped to has the
bit's level; under the default map LED k shows GL[k] (60_exceptions.md R266, whose map is the spec's decision D33; log 13). -/
def Obligations.LedsShowTheLatch : Prop :=
  ∀ (s : State) (k : Fin 16), (s.cfg.wf = true → s.pin s.cfg.glPinMap[k] = s.gl.getLsbD k) ∧
    (s.cfg.glPinMap = Config.straightPins → s.led k = s.gl.getLsbD k)

/-! ### The whole machine -/

/-- Every step keeps the machine's invariant: memory in canonical form, both signals low (10_state.md R38). -/
def Obligations.StepKeepsTheInvariant : Prop := ∀ s t : State, s.Inv → step s = .next t → t.Inv

/-- The invariant holds at reset, and at every power-up from a memory in canonical form. The signals low at power-up are
the spec's own decision D28 (logs 17, 27); the canonical form is the model's (log 2), and so are the other values of
`State.reset` (log 1). -/
def Obligations.PowerUpHasTheInvariant : Prop :=
  State.reset.Inv ∧ ∀ init : State, init.mem.wf → (State.powerUp init).Inv

/-- No step changes a byte of ROM or a parameter of the chip (20_memory.md R52; 10_state.md R46; log 4).
It rests on the spec's own decisions D25, D38 (logs 4, 15, 20). -/
def Obligations.RomAndParametersNeverChange : Prop :=
  ∀ s t : State, step s = .next t → t.cfg = s.cfg ∧ s.draws ≤ t.draws ∧
    ∀ a : Addr, a.toNat < 0x8000 → t.memRead a = s.memRead a

/-- Which instructions change which part of the state: registers and flags apart, each part has its own (10_state.md
R29; 20_memory.md R53; 60_exceptions.md R267). -/
def Obligations.EachPartHasItsOwnInstructions : Prop :=
  ∀ (i : Instr) (s t : State), exec i s = .next t →
    (Part.memory.kept s t ∨ ∃ r x, i = .store r x) ∧
    (Part.stack.kept s t ∨ i = .rts ∨ (∃ x, i = .call x) ∨ (∃ v, i = .phi v) ∨ ∃ r, i = .push r ∨ i = .pull r) ∧
    ((Part.ports.kept s t ∧ Part.vram.kept s t) ∨ ∃ r p, i = .out r p) ∧
    (Part.latch.kept s t ∨ i = .sgr) ∧ (Part.clock.kept s t ∨ i = .hlt)

/-- The 25 instructions whose column Flags Set is No leave the three flags; the 14 others leave in ZF and SF the test of
the result, which stands in A (10_state.md R24; 40_ldi_and_alu_two_operand.md R111).
It rests on the spec's own decisions D8, D9 (log 29). -/
def Obligations.FourteenInstructionsSetTheFlags : Prop :=
  ∀ (i : Instr) (s t : State), exec i s = .next t →
    (i.setsFlags = false → Part.flags.kept s t) ∧ (i.setsFlags = true → ZeroAndSignOf (t.reg .a) t)

/-- What each instruction leaves in A and B (70_reset_and_hazards.md R288, table T-R288): the ALU instructions leave the
result in A and in the named register; the others touch A and B only as their destination (`move`: the one MOVE_DIR makes
it).
It rests on the spec's own decisions D16 to D19 (logs 10, 23). -/
def Obligations.AluInstructionsOverwriteAAndB : Prop :=
  ∀ (i : Instr) (s t : State), exec i s = .next t →
    match i with
    | .adi v r | .sbi v r | .xri v r | .nandi v r => t.reg .a = t.reg r ∧ (r ≠ .b → t.reg .b = v)
    | .add rd rs | .sub rd rs | .xor rd rs | .nand rd rs => t.reg .a = t.reg rd ∧ (rd ≠ .b → t.reg .b = s.reg rs)
    | .inc r | .dcr r => t.reg .a = t.reg r ∧ (r ≠ .b → t.reg .b = 0x01)
    | .ror r | .rol r | .sfr r | .sfl r | .rri _ r | .rli _ r | .sli _ r | .sri _ r =>
      t.reg .a = t.reg r ∧ (r ≠ .b → t.reg .b = s.reg .b)
    | .ldi _ r | .load _ r | .pull r | .in_ _ r => RegsKeptBut [r] s t
    | .move r1 r2 => RegsKeptBut [(moveOperands s.cfg.moveDir r1 r2).2] s t
    | _ => RegsKeptBut [] s t

/-- An instruction other than a jump, `call` or `rts` ends at the instruction after it, modulo 65536 (10_state.md R27).
It rests on the spec's own decision D27 (log 25). -/
def Obligations.PcAdvancesByTheLength : Prop :=
  ∀ (i : Instr) (s t : State), exec i s = .next t → i.format ≠ .a → i ≠ .rts →
    t.pc.toNat = (s.pc.toNat + i.length) % 65536

/-- MAR, IDR, ODR and IR cannot be observed: steps from two states that differ in them only go alike (10_state.md R36).
It rests on the spec's own decision D37 (log 16). -/
def Obligations.BusRegistersAreUnobservable : Prop :=
  ∀ s t : State, SameButBusRegs s t → OutcomesAlike SameButBusRegs (step s) (step t)

/-- SP cannot be observed: steps from two states whose stacks are the same ring read from a different place go alike
(10_state.md R31). It rests on the spec's own decision D20 (log 21). -/
def Obligations.StackPointerIsUnobservable : Prop :=
  ∀ (k : Byte) (s t : State), StackTurned k s t → OutcomesAlike (StackTurned k) (step s) (step t)

/-- Power-up (70_reset_and_hazards.md R281): the `pc` is 0x0000, the machine runs, both lines are low, and all else is
what the reset values are; the model's own reset values list no memory byte.
It rests on the spec's own decision D28 (logs 1, 2, 27). -/
def Obligations.PowerUpStartsAtZero : Prop :=
  (∀ init : State, (State.powerUp init).pc = 0x0000 ∧ (State.powerUp init).halted = false ∧
    (State.powerUp init).ackLine = false ∧ (State.powerUp init).sgrLine = false ∧
    KeptBut [.clock, .lines] init (State.powerUp init)) ∧
  State.reset.pc = 0x0000 ∧ State.reset.halted = false ∧ State.reset.mem = []

/-- Power off and on: the ROM is as it was, and nothing else of the machine: every other part is the fresh one's, but for
what every power-up sets (60_exceptions.md R270; 70_reset_and_hazards.md R280, R281). That the parameters, which are the
chip's, and the count of draws stay is the model's own (log 27). The canonical form in the last clause is the model's
too (log 2). It rests on the spec's own decisions D28, D29 (logs 17, 27). -/
def Obligations.PowerCycleKeepsTheRom : Prop :=
  ∀ s fresh : State,
    (s.powerCycle fresh).pc = 0x0000 ∧ (s.powerCycle fresh).halted = false ∧
    (s.powerCycle fresh).ackLine = false ∧ (s.powerCycle fresh).sgrLine = false ∧
    (∀ a : Addr, a.toNat < 0x8000 → (s.powerCycle fresh).memRead a = s.memRead a) ∧
    (∀ a : Addr, 0x8000 ≤ a.toNat → (s.powerCycle fresh).memRead a = fresh.memRead a) ∧
    KeptBut [.memory, .clock, .lines, .params, .draws] fresh (s.powerCycle fresh) ∧
    (s.powerCycle fresh).cfg = s.cfg ∧ (s.powerCycle fresh).draws = s.draws ∧
    (s.mem.wf → fresh.mem.wf → (s.powerCycle fresh).Inv)
end

