-- ==== Sys2Proof/Laws/Decode.lean ====
section
/-! SUPPORT. The decoder: register and port bytes, one lemma per opcode row, and what a failed or accepted lookup says. -/

namespace Sys2Proof

/-! ### Register and port bytes -/

@[simp] theorem Reg.ofByte_code (r : Reg) : Reg.ofByte r.code = some r := by cases r <;> rfl

@[simp] theorem Port.ofByte_code (p : Port) : Port.ofByte p.code = some p := by cases p <;> rfl

/-- A byte names a register exactly when it is its selector code. -/
theorem Reg.ofByte_eq_some (b : Byte) (r : Reg) : Reg.ofByte b = some r ↔ b = r.code := by
  refine ⟨fun h => ?_, fun h => by simp [h]⟩
  unfold Reg.ofByte at h
  split at h <;> first
    | (obtain rfl : _ = r := Option.some.inj h; apply BitVec.eq_of_toNat_eq; simpa using ‹b.toNat = _›)
    | simp at h

/-- A byte names no register exactly when it is above 0x07 (30_encoding.md R91). -/
theorem Reg.ofByte_eq_none (b : Byte) : Reg.ofByte b = none ↔ 7 < b.toNat := by
  unfold Reg.ofByte
  split <;> simp_all
  omega

theorem Port.ofByte_eq_some (b : Byte) (p : Port) : Port.ofByte b = some p ↔ b = p.code := by
  refine ⟨fun h => ?_, fun h => by simp [h]⟩
  unfold Port.ofByte at h
  split at h <;> first
    | (obtain rfl : _ = p := Option.some.inj h; apply BitVec.eq_of_toNat_eq; simpa using ‹b.toNat = _›)
    | simp at h

/-- A byte names no port exactly when it is neither 0x01 nor 0x02 (30_encoding.md R92). -/
theorem Port.ofByte_eq_none (b : Byte) : Port.ofByte b = none ↔ b ≠ 0x01 ∧ b ≠ 0x02 := by
  unfold Port.ofByte
  split
  · next h => simp [BitVec.eq_of_toNat_eq (y := 0x01#8) h]
  · next h => simp [BitVec.eq_of_toNat_eq (y := 0x02#8) h]
  · next h1 h2 => exact ⟨fun _ => ⟨fun e => h1 (by simp [e]), fun e => h2 (by simp [e])⟩, fun _ => rfl⟩

/-- All a Register check can do: go on with the register, or InvalidRegister. -/
theorem withReg_cases (pos : Nat) (b : Byte) (k : Reg → Except DecodeError Instr) :
    (∃ r, b = r.code ∧ withReg pos b k = k r) ∨
      (7 < b.toNat ∧ withReg pos b k = .error (.invalidRegister b pos)) := by
  unfold withReg
  cases h : Reg.ofByte b with
  | some r => exact .inl ⟨r, (Reg.ofByte_eq_some b r).1 h, rfl⟩
  | none => exact .inr ⟨(Reg.ofByte_eq_none b).1 h, rfl⟩

/-- All a Port-no check can do: go on with the port, or InvalidPort. -/
theorem withPort_cases (b : Byte) (k : Port → Except DecodeError Instr) :
    (∃ p, b = p.code ∧ withPort b k = k p) ∨
      (b ≠ 0x01 ∧ b ≠ 0x02 ∧ withPort b k = .error (.invalidPort b)) := by
  unfold withPort
  cases h : Port.ofByte b with
  | some p => exact .inl ⟨p, (Port.ofByte_eq_some b p).1 h, rfl⟩
  | none => exact .inr ⟨((Port.ofByte_eq_none b).1 h).1, ((Port.ofByte_eq_none b).1 h).2, rfl⟩

/-! ### One lemma per opcode -/

theorem decode_0xc3 (b1 b2 b3 : Byte) : decode 0xc3 b1 b2 b3 = decodeVR .ldi b1 b2 := rfl
theorem decode_0x89 (b1 b2 b3 : Byte) : decode 0x89 b1 b2 b3 = decodeVR .adi b1 b2 := rfl
theorem decode_0x8a (b1 b2 b3 : Byte) : decode 0x8a b1 b2 b3 = decodeVR .sbi b1 b2 := rfl
theorem decode_0x70 (b1 b2 b3 : Byte) : decode 0x70 b1 b2 b3 = decodeRR .sub b1 b2 := rfl
theorem decode_0x71 (b1 b2 b3 : Byte) : decode 0x71 b1 b2 b3 = decodeRR .add b1 b2 := rfl
theorem decode_0x88 (b1 b2 b3 : Byte) : decode 0x88 b1 b2 b3 = decodeRR .xor b1 b2 := rfl
theorem decode_0x85 (b1 b2 b3 : Byte) : decode 0x85 b1 b2 b3 = decodeRR .nand b1 b2 := rfl
theorem decode_0xa0 (b1 b2 b3 : Byte) : decode 0xa0 b1 b2 b3 = decodeR .dcr b1 := rfl
theorem decode_0xa1 (b1 b2 b3 : Byte) : decode 0xa1 b1 b2 b3 = decodeR .inc b1 := rfl
theorem decode_0xd0 (b1 b2 b3 : Byte) : decode 0xd0 b1 b2 b3 = decodeVR .xri b1 b2 := rfl
theorem decode_0xd1 (b1 b2 b3 : Byte) : decode 0xd1 b1 b2 b3 = decodeVR .nandi b1 b2 := rfl
theorem decode_0x01 (b1 b2 b3 : Byte) : decode 0x01 b1 b2 b3 = decodeA .jmp b1 b2 := rfl
theorem decode_0x02 (b1 b2 b3 : Byte) : decode 0x02 b1 b2 b3 = decodeA .jc b1 b2 := rfl
theorem decode_0x03 (b1 b2 b3 : Byte) : decode 0x03 b1 b2 b3 = decodeA .jnc b1 b2 := rfl
theorem decode_0x04 (b1 b2 b3 : Byte) : decode 0x04 b1 b2 b3 = decodeA .jz b1 b2 := rfl
theorem decode_0x05 (b1 b2 b3 : Byte) : decode 0x05 b1 b2 b3 = decodeA .jnz b1 b2 := rfl
theorem decode_0x06 (b1 b2 b3 : Byte) : decode 0x06 b1 b2 b3 = decodeA .jm b1 b2 := rfl
theorem decode_0x07 (b1 b2 b3 : Byte) : decode 0x07 b1 b2 b3 = decodeA .jp b1 b2 := rfl
theorem decode_0x50 (b1 b2 b3 : Byte) : decode 0x50 b1 b2 b3 = decodeA .call b1 b2 := rfl
theorem decode_0x51 (b1 b2 b3 : Byte) : decode 0x51 b1 b2 b3 = .ok .rts := rfl
theorem decode_0xff (b1 b2 b3 : Byte) : decode 0xff b1 b2 b3 = .ok .hlt := rfl
theorem decode_0xfe (b1 b2 b3 : Byte) : decode 0xfe b1 b2 b3 = .ok .nop := rfl
theorem decode_0x40 (b1 b2 b3 : Byte) : decode 0x40 b1 b2 b3 = .ok (.phi b1) := rfl
theorem decode_0x41 (b1 b2 b3 : Byte) : decode 0x41 b1 b2 b3 = decodeR .push b1 := rfl
theorem decode_0x42 (b1 b2 b3 : Byte) : decode 0x42 b1 b2 b3 = decodeR .pull b1 := rfl
theorem decode_0x20 (b1 b2 b3 : Byte) : decode 0x20 b1 b2 b3 = decodeRR .move b1 b2 := rfl
theorem decode_0x10 (b1 b2 b3 : Byte) : decode 0x10 b1 b2 b3 = withReg 3 b3 fun r => .ok (.load ⟨b1, b2⟩ r) := rfl
theorem decode_0x11 (b1 b2 b3 : Byte) : decode 0x11 b1 b2 b3 = withReg 1 b1 fun r => .ok (.store r ⟨b2, b3⟩) := rfl
theorem decode_0xb0 (b1 b2 b3 : Byte) : decode 0xb0 b1 b2 b3 = withPort b1 fun p => withReg 2 b2 fun r => .ok (.in_ p r) := rfl
theorem decode_0xb1 (b1 b2 b3 : Byte) : decode 0xb1 b1 b2 b3 = withReg 1 b1 fun r => withPort b2 fun p => .ok (.out r p) := rfl
theorem decode_0xb8 (b1 b2 b3 : Byte) : decode 0xb8 b1 b2 b3 = .ok .sgr := rfl
theorem decode_0xe0 (b1 b2 b3 : Byte) : decode 0xe0 b1 b2 b3 = decodeR .ror b1 := rfl
theorem decode_0xe1 (b1 b2 b3 : Byte) : decode 0xe1 b1 b2 b3 = decodeR .rol b1 := rfl
theorem decode_0xe2 (b1 b2 b3 : Byte) : decode 0xe2 b1 b2 b3 = decodeVR .rri b1 b2 := rfl
theorem decode_0xe3 (b1 b2 b3 : Byte) : decode 0xe3 b1 b2 b3 = decodeVR .rli b1 b2 := rfl
theorem decode_0xe4 (b1 b2 b3 : Byte) : decode 0xe4 b1 b2 b3 = decodeR .sfr b1 := rfl
theorem decode_0xe5 (b1 b2 b3 : Byte) : decode 0xe5 b1 b2 b3 = decodeR .sfl b1 := rfl
theorem decode_0xe6 (b1 b2 b3 : Byte) : decode 0xe6 b1 b2 b3 = decodeVR .sli b1 b2 := rfl
theorem decode_0xe7 (b1 b2 b3 : Byte) : decode 0xe7 b1 b2 b3 = decodeVR .sri b1 b2 := rfl

/-- Which byte 0 decodes as a row: each of the 39, or none. -/
theorem opcode_cases (b0 : Byte) :
    b0 ∈ opcodeRows.map Prod.fst ∨ opcodeRows.lookup b0 = none := by
  by_cases h : b0 ∈ opcodeRows.map Prod.fst
  · exact .inl h
  · refine .inr (List.lookup_eq_none_iff.2 fun p hp => ?_)
    simpa using fun e : b0 = p.1 => h (e ▸ List.mem_map_of_mem hp)

end Sys2Proof
end

