-- ==== Sys2Proof/Laws/State.lean ====
section
/-! SUPPORT. One lemma per field per update, so that no proof unfolds a record update: what an update leaves, what it
writes, and the reads of a register, a byte, an entry and an address through it. -/

namespace Sys2Proof.Machine

/-! ### setReg -/

@[simp] theorem State.setReg_cfg (s : State) (r : Reg) (v : Byte) : (s.setReg r v).cfg = s.cfg := rfl
@[simp] theorem State.setReg_regs (s : State) (r : Reg) (v : Byte) : (s.setReg r v).regs = s.regs.set r v := rfl
@[simp] theorem State.setReg_zf (s : State) (r : Reg) (v : Byte) : (s.setReg r v).zf = s.zf := rfl
@[simp] theorem State.setReg_cf (s : State) (r : Reg) (v : Byte) : (s.setReg r v).cf = s.cf := rfl
@[simp] theorem State.setReg_sf (s : State) (r : Reg) (v : Byte) : (s.setReg r v).sf = s.sf := rfl
@[simp] theorem State.setReg_pc (s : State) (r : Reg) (v : Byte) : (s.setReg r v).pc = s.pc := rfl
@[simp] theorem State.setReg_sp (s : State) (r : Reg) (v : Byte) : (s.setReg r v).sp = s.sp := rfl
@[simp] theorem State.setReg_sk (s : State) (r : Reg) (v : Byte) : (s.setReg r v).sk = s.sk := rfl
@[simp] theorem State.setReg_mar (s : State) (r : Reg) (v : Byte) : (s.setReg r v).mar = s.mar := rfl
@[simp] theorem State.setReg_idr (s : State) (r : Reg) (v : Byte) : (s.setReg r v).idr = s.idr := rfl
@[simp] theorem State.setReg_odr (s : State) (r : Reg) (v : Byte) : (s.setReg r v).odr = s.odr := rfl
@[simp] theorem State.setReg_ir (s : State) (r : Reg) (v : Byte) : (s.setReg r v).ir = s.ir := rfl
@[simp] theorem State.setReg_outp1 (s : State) (r : Reg) (v : Byte) : (s.setReg r v).outp1 = s.outp1 := rfl
@[simp] theorem State.setReg_outp2 (s : State) (r : Reg) (v : Byte) : (s.setReg r v).outp2 = s.outp2 := rfl
@[simp] theorem State.setReg_ackLine (s : State) (r : Reg) (v : Byte) : (s.setReg r v).ackLine = s.ackLine := rfl
@[simp] theorem State.setReg_sgrLine (s : State) (r : Reg) (v : Byte) : (s.setReg r v).sgrLine = s.sgrLine := rfl
@[simp] theorem State.setReg_halted (s : State) (r : Reg) (v : Byte) : (s.setReg r v).halted = s.halted := rfl
@[simp] theorem State.setReg_v1 (s : State) (r : Reg) (v : Byte) : (s.setReg r v).v1 = s.v1 := rfl
@[simp] theorem State.setReg_v2 (s : State) (r : Reg) (v : Byte) : (s.setReg r v).v2 = s.v2 := rfl
@[simp] theorem State.setReg_gl (s : State) (r : Reg) (v : Byte) : (s.setReg r v).gl = s.gl := rfl
@[simp] theorem State.setReg_mem (s : State) (r : Reg) (v : Byte) : (s.setReg r v).mem = s.mem := rfl
@[simp] theorem State.setReg_draws (s : State) (r : Reg) (v : Byte) : (s.setReg r v).draws = s.draws := rfl
@[simp] theorem State.setReg_memRead (s : State) (r : Reg) (v : Byte) (a' : Addr) : (s.setReg r v).memRead a' = s.memRead a' := rfl
@[simp] theorem State.setReg_entry (s : State) (r : Reg) (v : Byte) (i' : Byte) : (s.setReg r v).entry i' = s.entry i' := rfl
@[simp] theorem State.setReg_address (s : State) (r : Reg) (v : Byte) (t' : AddrOperand) : (s.setReg r v).address t' = s.address t' := rfl

/-! ### setPc -/

@[simp] theorem State.setPc_cfg (s : State) (x : Addr) : (s.setPc x).cfg = s.cfg := rfl
@[simp] theorem State.setPc_regs (s : State) (x : Addr) : (s.setPc x).regs = s.regs := rfl
@[simp] theorem State.setPc_zf (s : State) (x : Addr) : (s.setPc x).zf = s.zf := rfl
@[simp] theorem State.setPc_cf (s : State) (x : Addr) : (s.setPc x).cf = s.cf := rfl
@[simp] theorem State.setPc_sf (s : State) (x : Addr) : (s.setPc x).sf = s.sf := rfl
@[simp] theorem State.setPc_pc (s : State) (x : Addr) : (s.setPc x).pc = x := rfl
@[simp] theorem State.setPc_sp (s : State) (x : Addr) : (s.setPc x).sp = s.sp := rfl
@[simp] theorem State.setPc_sk (s : State) (x : Addr) : (s.setPc x).sk = s.sk := rfl
@[simp] theorem State.setPc_mar (s : State) (x : Addr) : (s.setPc x).mar = s.mar := rfl
@[simp] theorem State.setPc_idr (s : State) (x : Addr) : (s.setPc x).idr = s.idr := rfl
@[simp] theorem State.setPc_odr (s : State) (x : Addr) : (s.setPc x).odr = s.odr := rfl
@[simp] theorem State.setPc_ir (s : State) (x : Addr) : (s.setPc x).ir = s.ir := rfl
@[simp] theorem State.setPc_outp1 (s : State) (x : Addr) : (s.setPc x).outp1 = s.outp1 := rfl
@[simp] theorem State.setPc_outp2 (s : State) (x : Addr) : (s.setPc x).outp2 = s.outp2 := rfl
@[simp] theorem State.setPc_ackLine (s : State) (x : Addr) : (s.setPc x).ackLine = s.ackLine := rfl
@[simp] theorem State.setPc_sgrLine (s : State) (x : Addr) : (s.setPc x).sgrLine = s.sgrLine := rfl
@[simp] theorem State.setPc_halted (s : State) (x : Addr) : (s.setPc x).halted = s.halted := rfl
@[simp] theorem State.setPc_v1 (s : State) (x : Addr) : (s.setPc x).v1 = s.v1 := rfl
@[simp] theorem State.setPc_v2 (s : State) (x : Addr) : (s.setPc x).v2 = s.v2 := rfl
@[simp] theorem State.setPc_gl (s : State) (x : Addr) : (s.setPc x).gl = s.gl := rfl
@[simp] theorem State.setPc_mem (s : State) (x : Addr) : (s.setPc x).mem = s.mem := rfl
@[simp] theorem State.setPc_draws (s : State) (x : Addr) : (s.setPc x).draws = s.draws := rfl
@[simp] theorem State.setPc_reg (s : State) (x : Addr) (r' : Reg) : (s.setPc x).reg r' = s.reg r' := rfl
@[simp] theorem State.setPc_memRead (s : State) (x : Addr) (a' : Addr) : (s.setPc x).memRead a' = s.memRead a' := rfl
@[simp] theorem State.setPc_entry (s : State) (x : Addr) (i' : Byte) : (s.setPc x).entry i' = s.entry i' := rfl
@[simp] theorem State.setPc_address (s : State) (x : Addr) (t' : AddrOperand) : (s.setPc x).address t' = s.address t' := rfl

/-! ### advance -/

@[simp] theorem State.advance_cfg (s : State) (n : Nat) : (s.advance n).cfg = s.cfg := rfl
@[simp] theorem State.advance_regs (s : State) (n : Nat) : (s.advance n).regs = s.regs := rfl
@[simp] theorem State.advance_zf (s : State) (n : Nat) : (s.advance n).zf = s.zf := rfl
@[simp] theorem State.advance_cf (s : State) (n : Nat) : (s.advance n).cf = s.cf := rfl
@[simp] theorem State.advance_sf (s : State) (n : Nat) : (s.advance n).sf = s.sf := rfl
@[simp] theorem State.advance_pc (s : State) (n : Nat) : (s.advance n).pc = s.pc + BitVec.ofNat 16 n := rfl
@[simp] theorem State.advance_sp (s : State) (n : Nat) : (s.advance n).sp = s.sp := rfl
@[simp] theorem State.advance_sk (s : State) (n : Nat) : (s.advance n).sk = s.sk := rfl
@[simp] theorem State.advance_mar (s : State) (n : Nat) : (s.advance n).mar = s.mar := rfl
@[simp] theorem State.advance_idr (s : State) (n : Nat) : (s.advance n).idr = s.idr := rfl
@[simp] theorem State.advance_odr (s : State) (n : Nat) : (s.advance n).odr = s.odr := rfl
@[simp] theorem State.advance_ir (s : State) (n : Nat) : (s.advance n).ir = s.ir := rfl
@[simp] theorem State.advance_outp1 (s : State) (n : Nat) : (s.advance n).outp1 = s.outp1 := rfl
@[simp] theorem State.advance_outp2 (s : State) (n : Nat) : (s.advance n).outp2 = s.outp2 := rfl
@[simp] theorem State.advance_ackLine (s : State) (n : Nat) : (s.advance n).ackLine = s.ackLine := rfl
@[simp] theorem State.advance_sgrLine (s : State) (n : Nat) : (s.advance n).sgrLine = s.sgrLine := rfl
@[simp] theorem State.advance_halted (s : State) (n : Nat) : (s.advance n).halted = s.halted := rfl
@[simp] theorem State.advance_v1 (s : State) (n : Nat) : (s.advance n).v1 = s.v1 := rfl
@[simp] theorem State.advance_v2 (s : State) (n : Nat) : (s.advance n).v2 = s.v2 := rfl
@[simp] theorem State.advance_gl (s : State) (n : Nat) : (s.advance n).gl = s.gl := rfl
@[simp] theorem State.advance_mem (s : State) (n : Nat) : (s.advance n).mem = s.mem := rfl
@[simp] theorem State.advance_draws (s : State) (n : Nat) : (s.advance n).draws = s.draws := rfl
@[simp] theorem State.advance_reg (s : State) (n : Nat) (r' : Reg) : (s.advance n).reg r' = s.reg r' := rfl
@[simp] theorem State.advance_memRead (s : State) (n : Nat) (a' : Addr) : (s.advance n).memRead a' = s.memRead a' := rfl
@[simp] theorem State.advance_entry (s : State) (n : Nat) (i' : Byte) : (s.advance n).entry i' = s.entry i' := rfl
@[simp] theorem State.advance_address (s : State) (n : Nat) (t' : AddrOperand) : (s.advance n).address t' = s.address t' := rfl

/-! ### poke -/

@[simp] theorem State.poke_cfg (s : State) (a : Addr) (v : Byte) : (s.poke a v).cfg = s.cfg := rfl
@[simp] theorem State.poke_regs (s : State) (a : Addr) (v : Byte) : (s.poke a v).regs = s.regs := rfl
@[simp] theorem State.poke_zf (s : State) (a : Addr) (v : Byte) : (s.poke a v).zf = s.zf := rfl
@[simp] theorem State.poke_cf (s : State) (a : Addr) (v : Byte) : (s.poke a v).cf = s.cf := rfl
@[simp] theorem State.poke_sf (s : State) (a : Addr) (v : Byte) : (s.poke a v).sf = s.sf := rfl
@[simp] theorem State.poke_pc (s : State) (a : Addr) (v : Byte) : (s.poke a v).pc = s.pc := rfl
@[simp] theorem State.poke_sp (s : State) (a : Addr) (v : Byte) : (s.poke a v).sp = s.sp := rfl
@[simp] theorem State.poke_sk (s : State) (a : Addr) (v : Byte) : (s.poke a v).sk = s.sk := rfl
@[simp] theorem State.poke_mar (s : State) (a : Addr) (v : Byte) : (s.poke a v).mar = s.mar := rfl
@[simp] theorem State.poke_idr (s : State) (a : Addr) (v : Byte) : (s.poke a v).idr = s.idr := rfl
@[simp] theorem State.poke_odr (s : State) (a : Addr) (v : Byte) : (s.poke a v).odr = s.odr := rfl
@[simp] theorem State.poke_ir (s : State) (a : Addr) (v : Byte) : (s.poke a v).ir = s.ir := rfl
@[simp] theorem State.poke_outp1 (s : State) (a : Addr) (v : Byte) : (s.poke a v).outp1 = s.outp1 := rfl
@[simp] theorem State.poke_outp2 (s : State) (a : Addr) (v : Byte) : (s.poke a v).outp2 = s.outp2 := rfl
@[simp] theorem State.poke_ackLine (s : State) (a : Addr) (v : Byte) : (s.poke a v).ackLine = s.ackLine := rfl
@[simp] theorem State.poke_sgrLine (s : State) (a : Addr) (v : Byte) : (s.poke a v).sgrLine = s.sgrLine := rfl
@[simp] theorem State.poke_halted (s : State) (a : Addr) (v : Byte) : (s.poke a v).halted = s.halted := rfl
@[simp] theorem State.poke_v1 (s : State) (a : Addr) (v : Byte) : (s.poke a v).v1 = s.v1 := rfl
@[simp] theorem State.poke_v2 (s : State) (a : Addr) (v : Byte) : (s.poke a v).v2 = s.v2 := rfl
@[simp] theorem State.poke_gl (s : State) (a : Addr) (v : Byte) : (s.poke a v).gl = s.gl := rfl
@[simp] theorem State.poke_mem (s : State) (a : Addr) (v : Byte) : (s.poke a v).mem = s.mem.set a.toNat v := rfl
@[simp] theorem State.poke_draws (s : State) (a : Addr) (v : Byte) : (s.poke a v).draws = s.draws := rfl
@[simp] theorem State.poke_reg (s : State) (a : Addr) (v : Byte) (r' : Reg) : (s.poke a v).reg r' = s.reg r' := rfl
@[simp] theorem State.poke_entry (s : State) (a : Addr) (v : Byte) (i' : Byte) : (s.poke a v).entry i' = s.entry i' := rfl
@[simp] theorem State.poke_address (s : State) (a : Addr) (v : Byte) (t' : AddrOperand) : (s.poke a v).address t' = s.address t' := rfl

/-! ### push16 -/

@[simp] theorem State.push16_cfg (s : State) (e : Entry) : (s.push16 e).cfg = s.cfg := rfl
@[simp] theorem State.push16_regs (s : State) (e : Entry) : (s.push16 e).regs = s.regs := rfl
@[simp] theorem State.push16_zf (s : State) (e : Entry) : (s.push16 e).zf = s.zf := rfl
@[simp] theorem State.push16_cf (s : State) (e : Entry) : (s.push16 e).cf = s.cf := rfl
@[simp] theorem State.push16_sf (s : State) (e : Entry) : (s.push16 e).sf = s.sf := rfl
@[simp] theorem State.push16_pc (s : State) (e : Entry) : (s.push16 e).pc = s.pc := rfl
@[simp] theorem State.push16_sp (s : State) (e : Entry) : (s.push16 e).sp = s.sp + 1 := rfl
@[simp] theorem State.push16_sk (s : State) (e : Entry) : (s.push16 e).sk = s.sk.set (s.sp + 1).toNat e (s.sp + 1).isLt := rfl
@[simp] theorem State.push16_mar (s : State) (e : Entry) : (s.push16 e).mar = s.mar := rfl
@[simp] theorem State.push16_idr (s : State) (e : Entry) : (s.push16 e).idr = s.idr := rfl
@[simp] theorem State.push16_odr (s : State) (e : Entry) : (s.push16 e).odr = s.odr := rfl
@[simp] theorem State.push16_ir (s : State) (e : Entry) : (s.push16 e).ir = s.ir := rfl
@[simp] theorem State.push16_outp1 (s : State) (e : Entry) : (s.push16 e).outp1 = s.outp1 := rfl
@[simp] theorem State.push16_outp2 (s : State) (e : Entry) : (s.push16 e).outp2 = s.outp2 := rfl
@[simp] theorem State.push16_ackLine (s : State) (e : Entry) : (s.push16 e).ackLine = s.ackLine := rfl
@[simp] theorem State.push16_sgrLine (s : State) (e : Entry) : (s.push16 e).sgrLine = s.sgrLine := rfl
@[simp] theorem State.push16_halted (s : State) (e : Entry) : (s.push16 e).halted = s.halted := rfl
@[simp] theorem State.push16_v1 (s : State) (e : Entry) : (s.push16 e).v1 = s.v1 := rfl
@[simp] theorem State.push16_v2 (s : State) (e : Entry) : (s.push16 e).v2 = s.v2 := rfl
@[simp] theorem State.push16_gl (s : State) (e : Entry) : (s.push16 e).gl = s.gl := rfl
@[simp] theorem State.push16_mem (s : State) (e : Entry) : (s.push16 e).mem = s.mem := rfl
@[simp] theorem State.push16_draws (s : State) (e : Entry) : (s.push16 e).draws = s.draws := rfl
@[simp] theorem State.push16_reg (s : State) (e : Entry) (r' : Reg) : (s.push16 e).reg r' = s.reg r' := rfl
@[simp] theorem State.push16_memRead (s : State) (e : Entry) (a' : Addr) : (s.push16 e).memRead a' = s.memRead a' := rfl
@[simp] theorem State.push16_address (s : State) (e : Entry) (t' : AddrOperand) : (s.push16 e).address t' = s.address t' := rfl

/-! ### pop16 -/

@[simp] theorem State.pop16_cfg (s : State) : (s.pop16).cfg = s.cfg := rfl
@[simp] theorem State.pop16_regs (s : State) : (s.pop16).regs = s.regs := rfl
@[simp] theorem State.pop16_zf (s : State) : (s.pop16).zf = s.zf := rfl
@[simp] theorem State.pop16_cf (s : State) : (s.pop16).cf = s.cf := rfl
@[simp] theorem State.pop16_sf (s : State) : (s.pop16).sf = s.sf := rfl
@[simp] theorem State.pop16_pc (s : State) : (s.pop16).pc = s.pc := rfl
@[simp] theorem State.pop16_sp (s : State) : (s.pop16).sp = s.sp - 1 := rfl
@[simp] theorem State.pop16_sk (s : State) : (s.pop16).sk = s.sk := rfl
@[simp] theorem State.pop16_mar (s : State) : (s.pop16).mar = s.mar := rfl
@[simp] theorem State.pop16_idr (s : State) : (s.pop16).idr = s.idr := rfl
@[simp] theorem State.pop16_odr (s : State) : (s.pop16).odr = s.odr := rfl
@[simp] theorem State.pop16_ir (s : State) : (s.pop16).ir = s.ir := rfl
@[simp] theorem State.pop16_outp1 (s : State) : (s.pop16).outp1 = s.outp1 := rfl
@[simp] theorem State.pop16_outp2 (s : State) : (s.pop16).outp2 = s.outp2 := rfl
@[simp] theorem State.pop16_ackLine (s : State) : (s.pop16).ackLine = s.ackLine := rfl
@[simp] theorem State.pop16_sgrLine (s : State) : (s.pop16).sgrLine = s.sgrLine := rfl
@[simp] theorem State.pop16_halted (s : State) : (s.pop16).halted = s.halted := rfl
@[simp] theorem State.pop16_v1 (s : State) : (s.pop16).v1 = s.v1 := rfl
@[simp] theorem State.pop16_v2 (s : State) : (s.pop16).v2 = s.v2 := rfl
@[simp] theorem State.pop16_gl (s : State) : (s.pop16).gl = s.gl := rfl
@[simp] theorem State.pop16_mem (s : State) : (s.pop16).mem = s.mem := rfl
@[simp] theorem State.pop16_draws (s : State) : (s.pop16).draws = s.draws := rfl
@[simp] theorem State.pop16_reg (s : State) (r' : Reg) : (s.pop16).reg r' = s.reg r' := rfl
@[simp] theorem State.pop16_memRead (s : State) (a' : Addr) : (s.pop16).memRead a' = s.memRead a' := rfl
@[simp] theorem State.pop16_entry (s : State) (i' : Byte) : (s.pop16).entry i' = s.entry i' := rfl
@[simp] theorem State.pop16_address (s : State) (t' : AddrOperand) : (s.pop16).address t' = s.address t' := rfl

/-! ### countDraws -/

@[simp] theorem State.countDraws_cfg (s : State) (n : Nat) : (s.countDraws n).cfg = s.cfg := rfl
@[simp] theorem State.countDraws_regs (s : State) (n : Nat) : (s.countDraws n).regs = s.regs := rfl
@[simp] theorem State.countDraws_zf (s : State) (n : Nat) : (s.countDraws n).zf = s.zf := rfl
@[simp] theorem State.countDraws_cf (s : State) (n : Nat) : (s.countDraws n).cf = s.cf := rfl
@[simp] theorem State.countDraws_sf (s : State) (n : Nat) : (s.countDraws n).sf = s.sf := rfl
@[simp] theorem State.countDraws_pc (s : State) (n : Nat) : (s.countDraws n).pc = s.pc := rfl
@[simp] theorem State.countDraws_sp (s : State) (n : Nat) : (s.countDraws n).sp = s.sp := rfl
@[simp] theorem State.countDraws_sk (s : State) (n : Nat) : (s.countDraws n).sk = s.sk := rfl
@[simp] theorem State.countDraws_mar (s : State) (n : Nat) : (s.countDraws n).mar = s.mar := rfl
@[simp] theorem State.countDraws_idr (s : State) (n : Nat) : (s.countDraws n).idr = s.idr := rfl
@[simp] theorem State.countDraws_odr (s : State) (n : Nat) : (s.countDraws n).odr = s.odr := rfl
@[simp] theorem State.countDraws_ir (s : State) (n : Nat) : (s.countDraws n).ir = s.ir := rfl
@[simp] theorem State.countDraws_outp1 (s : State) (n : Nat) : (s.countDraws n).outp1 = s.outp1 := rfl
@[simp] theorem State.countDraws_outp2 (s : State) (n : Nat) : (s.countDraws n).outp2 = s.outp2 := rfl
@[simp] theorem State.countDraws_ackLine (s : State) (n : Nat) : (s.countDraws n).ackLine = s.ackLine := rfl
@[simp] theorem State.countDraws_sgrLine (s : State) (n : Nat) : (s.countDraws n).sgrLine = s.sgrLine := rfl
@[simp] theorem State.countDraws_halted (s : State) (n : Nat) : (s.countDraws n).halted = s.halted := rfl
@[simp] theorem State.countDraws_v1 (s : State) (n : Nat) : (s.countDraws n).v1 = s.v1 := rfl
@[simp] theorem State.countDraws_v2 (s : State) (n : Nat) : (s.countDraws n).v2 = s.v2 := rfl
@[simp] theorem State.countDraws_gl (s : State) (n : Nat) : (s.countDraws n).gl = s.gl := rfl
@[simp] theorem State.countDraws_mem (s : State) (n : Nat) : (s.countDraws n).mem = s.mem := rfl
@[simp] theorem State.countDraws_draws (s : State) (n : Nat) : (s.countDraws n).draws = s.draws + n := rfl
@[simp] theorem State.countDraws_reg (s : State) (n : Nat) (r' : Reg) : (s.countDraws n).reg r' = s.reg r' := rfl
@[simp] theorem State.countDraws_memRead (s : State) (n : Nat) (a' : Addr) : (s.countDraws n).memRead a' = s.memRead a' := rfl
@[simp] theorem State.countDraws_entry (s : State) (n : Nat) (i' : Byte) : (s.countDraws n).entry i' = s.entry i' := rfl
@[simp] theorem State.countDraws_address (s : State) (n : Nat) (t' : AddrOperand) : (s.countDraws n).address t' = s.address t' := rfl

/-! ### latchRead -/

@[simp] theorem State.latchRead_cfg (s : State) (a : Addr) (v : Byte) : (s.latchRead a v).cfg = s.cfg := rfl
@[simp] theorem State.latchRead_regs (s : State) (a : Addr) (v : Byte) : (s.latchRead a v).regs = s.regs := rfl
@[simp] theorem State.latchRead_zf (s : State) (a : Addr) (v : Byte) : (s.latchRead a v).zf = s.zf := rfl
@[simp] theorem State.latchRead_cf (s : State) (a : Addr) (v : Byte) : (s.latchRead a v).cf = s.cf := rfl
@[simp] theorem State.latchRead_sf (s : State) (a : Addr) (v : Byte) : (s.latchRead a v).sf = s.sf := rfl
@[simp] theorem State.latchRead_pc (s : State) (a : Addr) (v : Byte) : (s.latchRead a v).pc = s.pc := rfl
@[simp] theorem State.latchRead_sp (s : State) (a : Addr) (v : Byte) : (s.latchRead a v).sp = s.sp := rfl
@[simp] theorem State.latchRead_sk (s : State) (a : Addr) (v : Byte) : (s.latchRead a v).sk = s.sk := rfl
@[simp] theorem State.latchRead_mar (s : State) (a : Addr) (v : Byte) : (s.latchRead a v).mar = a := rfl
@[simp] theorem State.latchRead_idr (s : State) (a : Addr) (v : Byte) : (s.latchRead a v).idr = s.idr := rfl
@[simp] theorem State.latchRead_odr (s : State) (a : Addr) (v : Byte) : (s.latchRead a v).odr = v := rfl
@[simp] theorem State.latchRead_ir (s : State) (a : Addr) (v : Byte) : (s.latchRead a v).ir = s.ir := rfl
@[simp] theorem State.latchRead_outp1 (s : State) (a : Addr) (v : Byte) : (s.latchRead a v).outp1 = s.outp1 := rfl
@[simp] theorem State.latchRead_outp2 (s : State) (a : Addr) (v : Byte) : (s.latchRead a v).outp2 = s.outp2 := rfl
@[simp] theorem State.latchRead_ackLine (s : State) (a : Addr) (v : Byte) : (s.latchRead a v).ackLine = s.ackLine := rfl
@[simp] theorem State.latchRead_sgrLine (s : State) (a : Addr) (v : Byte) : (s.latchRead a v).sgrLine = s.sgrLine := rfl
@[simp] theorem State.latchRead_halted (s : State) (a : Addr) (v : Byte) : (s.latchRead a v).halted = s.halted := rfl
@[simp] theorem State.latchRead_v1 (s : State) (a : Addr) (v : Byte) : (s.latchRead a v).v1 = s.v1 := rfl
@[simp] theorem State.latchRead_v2 (s : State) (a : Addr) (v : Byte) : (s.latchRead a v).v2 = s.v2 := rfl
@[simp] theorem State.latchRead_gl (s : State) (a : Addr) (v : Byte) : (s.latchRead a v).gl = s.gl := rfl
@[simp] theorem State.latchRead_mem (s : State) (a : Addr) (v : Byte) : (s.latchRead a v).mem = s.mem := rfl
@[simp] theorem State.latchRead_draws (s : State) (a : Addr) (v : Byte) : (s.latchRead a v).draws = s.draws := rfl
@[simp] theorem State.latchRead_reg (s : State) (a : Addr) (v : Byte) (r' : Reg) : (s.latchRead a v).reg r' = s.reg r' := rfl
@[simp] theorem State.latchRead_memRead (s : State) (a : Addr) (v : Byte) (a' : Addr) : (s.latchRead a v).memRead a' = s.memRead a' := rfl
@[simp] theorem State.latchRead_entry (s : State) (a : Addr) (v : Byte) (i' : Byte) : (s.latchRead a v).entry i' = s.entry i' := rfl
@[simp] theorem State.latchRead_address (s : State) (a : Addr) (v : Byte) (t' : AddrOperand) : (s.latchRead a v).address t' = s.address t' := rfl

/-! ### latchWrite -/

@[simp] theorem State.latchWrite_cfg (s : State) (a : Addr) (v : Byte) : (s.latchWrite a v).cfg = s.cfg := rfl
@[simp] theorem State.latchWrite_regs (s : State) (a : Addr) (v : Byte) : (s.latchWrite a v).regs = s.regs := rfl
@[simp] theorem State.latchWrite_zf (s : State) (a : Addr) (v : Byte) : (s.latchWrite a v).zf = s.zf := rfl
@[simp] theorem State.latchWrite_cf (s : State) (a : Addr) (v : Byte) : (s.latchWrite a v).cf = s.cf := rfl
@[simp] theorem State.latchWrite_sf (s : State) (a : Addr) (v : Byte) : (s.latchWrite a v).sf = s.sf := rfl
@[simp] theorem State.latchWrite_pc (s : State) (a : Addr) (v : Byte) : (s.latchWrite a v).pc = s.pc := rfl
@[simp] theorem State.latchWrite_sp (s : State) (a : Addr) (v : Byte) : (s.latchWrite a v).sp = s.sp := rfl
@[simp] theorem State.latchWrite_sk (s : State) (a : Addr) (v : Byte) : (s.latchWrite a v).sk = s.sk := rfl
@[simp] theorem State.latchWrite_mar (s : State) (a : Addr) (v : Byte) : (s.latchWrite a v).mar = a := rfl
@[simp] theorem State.latchWrite_idr (s : State) (a : Addr) (v : Byte) : (s.latchWrite a v).idr = v := rfl
@[simp] theorem State.latchWrite_odr (s : State) (a : Addr) (v : Byte) : (s.latchWrite a v).odr = s.odr := rfl
@[simp] theorem State.latchWrite_ir (s : State) (a : Addr) (v : Byte) : (s.latchWrite a v).ir = s.ir := rfl
@[simp] theorem State.latchWrite_outp1 (s : State) (a : Addr) (v : Byte) : (s.latchWrite a v).outp1 = s.outp1 := rfl
@[simp] theorem State.latchWrite_outp2 (s : State) (a : Addr) (v : Byte) : (s.latchWrite a v).outp2 = s.outp2 := rfl
@[simp] theorem State.latchWrite_ackLine (s : State) (a : Addr) (v : Byte) : (s.latchWrite a v).ackLine = s.ackLine := rfl
@[simp] theorem State.latchWrite_sgrLine (s : State) (a : Addr) (v : Byte) : (s.latchWrite a v).sgrLine = s.sgrLine := rfl
@[simp] theorem State.latchWrite_halted (s : State) (a : Addr) (v : Byte) : (s.latchWrite a v).halted = s.halted := rfl
@[simp] theorem State.latchWrite_v1 (s : State) (a : Addr) (v : Byte) : (s.latchWrite a v).v1 = s.v1 := rfl
@[simp] theorem State.latchWrite_v2 (s : State) (a : Addr) (v : Byte) : (s.latchWrite a v).v2 = s.v2 := rfl
@[simp] theorem State.latchWrite_gl (s : State) (a : Addr) (v : Byte) : (s.latchWrite a v).gl = s.gl := rfl
@[simp] theorem State.latchWrite_mem (s : State) (a : Addr) (v : Byte) : (s.latchWrite a v).mem = s.mem := rfl
@[simp] theorem State.latchWrite_draws (s : State) (a : Addr) (v : Byte) : (s.latchWrite a v).draws = s.draws := rfl
@[simp] theorem State.latchWrite_reg (s : State) (a : Addr) (v : Byte) (r' : Reg) : (s.latchWrite a v).reg r' = s.reg r' := rfl
@[simp] theorem State.latchWrite_memRead (s : State) (a : Addr) (v : Byte) (a' : Addr) : (s.latchWrite a v).memRead a' = s.memRead a' := rfl
@[simp] theorem State.latchWrite_entry (s : State) (a : Addr) (v : Byte) (i' : Byte) : (s.latchWrite a v).entry i' = s.entry i' := rfl
@[simp] theorem State.latchWrite_address (s : State) (a : Addr) (v : Byte) (t' : AddrOperand) : (s.latchWrite a v).address t' = s.address t' := rfl

/-! ### latchOpcode -/

@[simp] theorem State.latchOpcode_cfg (s : State) (v : Byte) : (s.latchOpcode v).cfg = s.cfg := rfl
@[simp] theorem State.latchOpcode_regs (s : State) (v : Byte) : (s.latchOpcode v).regs = s.regs := rfl
@[simp] theorem State.latchOpcode_zf (s : State) (v : Byte) : (s.latchOpcode v).zf = s.zf := rfl
@[simp] theorem State.latchOpcode_cf (s : State) (v : Byte) : (s.latchOpcode v).cf = s.cf := rfl
@[simp] theorem State.latchOpcode_sf (s : State) (v : Byte) : (s.latchOpcode v).sf = s.sf := rfl
@[simp] theorem State.latchOpcode_pc (s : State) (v : Byte) : (s.latchOpcode v).pc = s.pc := rfl
@[simp] theorem State.latchOpcode_sp (s : State) (v : Byte) : (s.latchOpcode v).sp = s.sp := rfl
@[simp] theorem State.latchOpcode_sk (s : State) (v : Byte) : (s.latchOpcode v).sk = s.sk := rfl
@[simp] theorem State.latchOpcode_mar (s : State) (v : Byte) : (s.latchOpcode v).mar = s.mar := rfl
@[simp] theorem State.latchOpcode_idr (s : State) (v : Byte) : (s.latchOpcode v).idr = s.idr := rfl
@[simp] theorem State.latchOpcode_odr (s : State) (v : Byte) : (s.latchOpcode v).odr = s.odr := rfl
@[simp] theorem State.latchOpcode_ir (s : State) (v : Byte) : (s.latchOpcode v).ir = v := rfl
@[simp] theorem State.latchOpcode_outp1 (s : State) (v : Byte) : (s.latchOpcode v).outp1 = s.outp1 := rfl
@[simp] theorem State.latchOpcode_outp2 (s : State) (v : Byte) : (s.latchOpcode v).outp2 = s.outp2 := rfl
@[simp] theorem State.latchOpcode_ackLine (s : State) (v : Byte) : (s.latchOpcode v).ackLine = s.ackLine := rfl
@[simp] theorem State.latchOpcode_sgrLine (s : State) (v : Byte) : (s.latchOpcode v).sgrLine = s.sgrLine := rfl
@[simp] theorem State.latchOpcode_halted (s : State) (v : Byte) : (s.latchOpcode v).halted = s.halted := rfl
@[simp] theorem State.latchOpcode_v1 (s : State) (v : Byte) : (s.latchOpcode v).v1 = s.v1 := rfl
@[simp] theorem State.latchOpcode_v2 (s : State) (v : Byte) : (s.latchOpcode v).v2 = s.v2 := rfl
@[simp] theorem State.latchOpcode_gl (s : State) (v : Byte) : (s.latchOpcode v).gl = s.gl := rfl
@[simp] theorem State.latchOpcode_mem (s : State) (v : Byte) : (s.latchOpcode v).mem = s.mem := rfl
@[simp] theorem State.latchOpcode_draws (s : State) (v : Byte) : (s.latchOpcode v).draws = s.draws := rfl
@[simp] theorem State.latchOpcode_reg (s : State) (v : Byte) (r' : Reg) : (s.latchOpcode v).reg r' = s.reg r' := rfl
@[simp] theorem State.latchOpcode_memRead (s : State) (v : Byte) (a' : Addr) : (s.latchOpcode v).memRead a' = s.memRead a' := rfl
@[simp] theorem State.latchOpcode_entry (s : State) (v : Byte) (i' : Byte) : (s.latchOpcode v).entry i' = s.entry i' := rfl
@[simp] theorem State.latchOpcode_address (s : State) (v : Byte) (t' : AddrOperand) : (s.latchOpcode v).address t' = s.address t' := rfl

/-! ### stopClock -/

@[simp] theorem State.stopClock_cfg (s : State) : (s.stopClock).cfg = s.cfg := rfl
@[simp] theorem State.stopClock_regs (s : State) : (s.stopClock).regs = s.regs := rfl
@[simp] theorem State.stopClock_zf (s : State) : (s.stopClock).zf = s.zf := rfl
@[simp] theorem State.stopClock_cf (s : State) : (s.stopClock).cf = s.cf := rfl
@[simp] theorem State.stopClock_sf (s : State) : (s.stopClock).sf = s.sf := rfl
@[simp] theorem State.stopClock_pc (s : State) : (s.stopClock).pc = s.pc := rfl
@[simp] theorem State.stopClock_sp (s : State) : (s.stopClock).sp = s.sp := rfl
@[simp] theorem State.stopClock_sk (s : State) : (s.stopClock).sk = s.sk := rfl
@[simp] theorem State.stopClock_mar (s : State) : (s.stopClock).mar = s.mar := rfl
@[simp] theorem State.stopClock_idr (s : State) : (s.stopClock).idr = s.idr := rfl
@[simp] theorem State.stopClock_odr (s : State) : (s.stopClock).odr = s.odr := rfl
@[simp] theorem State.stopClock_ir (s : State) : (s.stopClock).ir = s.ir := rfl
@[simp] theorem State.stopClock_outp1 (s : State) : (s.stopClock).outp1 = s.outp1 := rfl
@[simp] theorem State.stopClock_outp2 (s : State) : (s.stopClock).outp2 = s.outp2 := rfl
@[simp] theorem State.stopClock_ackLine (s : State) : (s.stopClock).ackLine = s.ackLine := rfl
@[simp] theorem State.stopClock_sgrLine (s : State) : (s.stopClock).sgrLine = s.sgrLine := rfl
@[simp] theorem State.stopClock_halted (s : State) : (s.stopClock).halted = true := rfl
@[simp] theorem State.stopClock_v1 (s : State) : (s.stopClock).v1 = s.v1 := rfl
@[simp] theorem State.stopClock_v2 (s : State) : (s.stopClock).v2 = s.v2 := rfl
@[simp] theorem State.stopClock_gl (s : State) : (s.stopClock).gl = s.gl := rfl
@[simp] theorem State.stopClock_mem (s : State) : (s.stopClock).mem = s.mem := rfl
@[simp] theorem State.stopClock_draws (s : State) : (s.stopClock).draws = s.draws := rfl
@[simp] theorem State.stopClock_reg (s : State) (r' : Reg) : (s.stopClock).reg r' = s.reg r' := rfl
@[simp] theorem State.stopClock_memRead (s : State) (a' : Addr) : (s.stopClock).memRead a' = s.memRead a' := rfl
@[simp] theorem State.stopClock_entry (s : State) (i' : Byte) : (s.stopClock).entry i' = s.entry i' := rfl
@[simp] theorem State.stopClock_address (s : State) (t' : AddrOperand) : (s.stopClock).address t' = s.address t' := rfl

/-! ### setFlags -/

@[simp] theorem State.setFlags_cfg (s : State) (x : Byte) (c : Bool) : (s.setFlags x c).cfg = s.cfg := rfl
@[simp] theorem State.setFlags_regs (s : State) (x : Byte) (c : Bool) : (s.setFlags x c).regs = s.regs := rfl
@[simp] theorem State.setFlags_zf (s : State) (x : Byte) (c : Bool) : (s.setFlags x c).zf = decide (x = 0x00) := rfl
@[simp] theorem State.setFlags_cf (s : State) (x : Byte) (c : Bool) : (s.setFlags x c).cf = c := rfl
@[simp] theorem State.setFlags_sf (s : State) (x : Byte) (c : Bool) : (s.setFlags x c).sf = x.msb := rfl
@[simp] theorem State.setFlags_pc (s : State) (x : Byte) (c : Bool) : (s.setFlags x c).pc = s.pc := rfl
@[simp] theorem State.setFlags_sp (s : State) (x : Byte) (c : Bool) : (s.setFlags x c).sp = s.sp := rfl
@[simp] theorem State.setFlags_sk (s : State) (x : Byte) (c : Bool) : (s.setFlags x c).sk = s.sk := rfl
@[simp] theorem State.setFlags_mar (s : State) (x : Byte) (c : Bool) : (s.setFlags x c).mar = s.mar := rfl
@[simp] theorem State.setFlags_idr (s : State) (x : Byte) (c : Bool) : (s.setFlags x c).idr = s.idr := rfl
@[simp] theorem State.setFlags_odr (s : State) (x : Byte) (c : Bool) : (s.setFlags x c).odr = s.odr := rfl
@[simp] theorem State.setFlags_ir (s : State) (x : Byte) (c : Bool) : (s.setFlags x c).ir = s.ir := rfl
@[simp] theorem State.setFlags_outp1 (s : State) (x : Byte) (c : Bool) : (s.setFlags x c).outp1 = s.outp1 := rfl
@[simp] theorem State.setFlags_outp2 (s : State) (x : Byte) (c : Bool) : (s.setFlags x c).outp2 = s.outp2 := rfl
@[simp] theorem State.setFlags_ackLine (s : State) (x : Byte) (c : Bool) : (s.setFlags x c).ackLine = s.ackLine := rfl
@[simp] theorem State.setFlags_sgrLine (s : State) (x : Byte) (c : Bool) : (s.setFlags x c).sgrLine = s.sgrLine := rfl
@[simp] theorem State.setFlags_halted (s : State) (x : Byte) (c : Bool) : (s.setFlags x c).halted = s.halted := rfl
@[simp] theorem State.setFlags_v1 (s : State) (x : Byte) (c : Bool) : (s.setFlags x c).v1 = s.v1 := rfl
@[simp] theorem State.setFlags_v2 (s : State) (x : Byte) (c : Bool) : (s.setFlags x c).v2 = s.v2 := rfl
@[simp] theorem State.setFlags_gl (s : State) (x : Byte) (c : Bool) : (s.setFlags x c).gl = s.gl := rfl
@[simp] theorem State.setFlags_mem (s : State) (x : Byte) (c : Bool) : (s.setFlags x c).mem = s.mem := rfl
@[simp] theorem State.setFlags_draws (s : State) (x : Byte) (c : Bool) : (s.setFlags x c).draws = s.draws := rfl
@[simp] theorem State.setFlags_reg (s : State) (x : Byte) (c : Bool) (r' : Reg) : (s.setFlags x c).reg r' = s.reg r' := rfl
@[simp] theorem State.setFlags_memRead (s : State) (x : Byte) (c : Bool) (a' : Addr) : (s.setFlags x c).memRead a' = s.memRead a' := rfl
@[simp] theorem State.setFlags_entry (s : State) (x : Byte) (c : Bool) (i' : Byte) : (s.setFlags x c).entry i' = s.entry i' := rfl
@[simp] theorem State.setFlags_address (s : State) (x : Byte) (c : Bool) (t' : AddrOperand) : (s.setFlags x c).address t' = s.address t' := rfl

/-! ### setOutp -/

@[simp] theorem State.setOutp_cfg (s : State) (p : Port) (v : Byte) : (s.setOutp p v).cfg = s.cfg := by cases p <;> rfl
@[simp] theorem State.setOutp_regs (s : State) (p : Port) (v : Byte) : (s.setOutp p v).regs = s.regs := by cases p <;> rfl
@[simp] theorem State.setOutp_zf (s : State) (p : Port) (v : Byte) : (s.setOutp p v).zf = s.zf := by cases p <;> rfl
@[simp] theorem State.setOutp_cf (s : State) (p : Port) (v : Byte) : (s.setOutp p v).cf = s.cf := by cases p <;> rfl
@[simp] theorem State.setOutp_sf (s : State) (p : Port) (v : Byte) : (s.setOutp p v).sf = s.sf := by cases p <;> rfl
@[simp] theorem State.setOutp_pc (s : State) (p : Port) (v : Byte) : (s.setOutp p v).pc = s.pc := by cases p <;> rfl
@[simp] theorem State.setOutp_sp (s : State) (p : Port) (v : Byte) : (s.setOutp p v).sp = s.sp := by cases p <;> rfl
@[simp] theorem State.setOutp_sk (s : State) (p : Port) (v : Byte) : (s.setOutp p v).sk = s.sk := by cases p <;> rfl
@[simp] theorem State.setOutp_mar (s : State) (p : Port) (v : Byte) : (s.setOutp p v).mar = s.mar := by cases p <;> rfl
@[simp] theorem State.setOutp_idr (s : State) (p : Port) (v : Byte) : (s.setOutp p v).idr = s.idr := by cases p <;> rfl
@[simp] theorem State.setOutp_odr (s : State) (p : Port) (v : Byte) : (s.setOutp p v).odr = s.odr := by cases p <;> rfl
@[simp] theorem State.setOutp_ir (s : State) (p : Port) (v : Byte) : (s.setOutp p v).ir = s.ir := by cases p <;> rfl
@[simp] theorem State.setOutp_outp1 (s : State) (p : Port) (v : Byte) : (s.setOutp p v).outp1 = (if p = .p1 then v else s.outp1) := by cases p <;> rfl
@[simp] theorem State.setOutp_outp2 (s : State) (p : Port) (v : Byte) : (s.setOutp p v).outp2 = (if p = .p2 then v else s.outp2) := by cases p <;> rfl
@[simp] theorem State.setOutp_ackLine (s : State) (p : Port) (v : Byte) : (s.setOutp p v).ackLine = s.ackLine := by cases p <;> rfl
@[simp] theorem State.setOutp_sgrLine (s : State) (p : Port) (v : Byte) : (s.setOutp p v).sgrLine = s.sgrLine := by cases p <;> rfl
@[simp] theorem State.setOutp_halted (s : State) (p : Port) (v : Byte) : (s.setOutp p v).halted = s.halted := by cases p <;> rfl
@[simp] theorem State.setOutp_v1 (s : State) (p : Port) (v : Byte) : (s.setOutp p v).v1 = s.v1 := by cases p <;> rfl
@[simp] theorem State.setOutp_v2 (s : State) (p : Port) (v : Byte) : (s.setOutp p v).v2 = s.v2 := by cases p <;> rfl
@[simp] theorem State.setOutp_gl (s : State) (p : Port) (v : Byte) : (s.setOutp p v).gl = s.gl := by cases p <;> rfl
@[simp] theorem State.setOutp_mem (s : State) (p : Port) (v : Byte) : (s.setOutp p v).mem = s.mem := by cases p <;> rfl
@[simp] theorem State.setOutp_draws (s : State) (p : Port) (v : Byte) : (s.setOutp p v).draws = s.draws := by cases p <;> rfl
@[simp] theorem State.setOutp_reg (s : State) (p : Port) (v : Byte) (r' : Reg) : (s.setOutp p v).reg r' = s.reg r' := by
  simp [State.reg]
@[simp] theorem State.setOutp_memRead (s : State) (p : Port) (v : Byte) (a' : Addr) : (s.setOutp p v).memRead a' = s.memRead a' := by
  simp [State.memRead]
@[simp] theorem State.setOutp_entry (s : State) (p : Port) (v : Byte) (i' : Byte) : (s.setOutp p v).entry i' = s.entry i' := by
  simp [State.entry]
@[simp] theorem State.setOutp_address (s : State) (p : Port) (v : Byte) (t' : AddrOperand) : (s.setOutp p v).address t' = s.address t' := by
  simp [State.address]

/-! ### vramCapture -/

@[simp] theorem State.vramCapture_cfg (s : State) : (s.vramCapture).cfg = s.cfg := by unfold State.vramCapture; split <;> [rfl; (split <;> rfl)]
@[simp] theorem State.vramCapture_regs (s : State) : (s.vramCapture).regs = s.regs := by unfold State.vramCapture; split <;> [rfl; (split <;> rfl)]
@[simp] theorem State.vramCapture_zf (s : State) : (s.vramCapture).zf = s.zf := by unfold State.vramCapture; split <;> [rfl; (split <;> rfl)]
@[simp] theorem State.vramCapture_cf (s : State) : (s.vramCapture).cf = s.cf := by unfold State.vramCapture; split <;> [rfl; (split <;> rfl)]
@[simp] theorem State.vramCapture_sf (s : State) : (s.vramCapture).sf = s.sf := by unfold State.vramCapture; split <;> [rfl; (split <;> rfl)]
@[simp] theorem State.vramCapture_pc (s : State) : (s.vramCapture).pc = s.pc := by unfold State.vramCapture; split <;> [rfl; (split <;> rfl)]
@[simp] theorem State.vramCapture_sp (s : State) : (s.vramCapture).sp = s.sp := by unfold State.vramCapture; split <;> [rfl; (split <;> rfl)]
@[simp] theorem State.vramCapture_sk (s : State) : (s.vramCapture).sk = s.sk := by unfold State.vramCapture; split <;> [rfl; (split <;> rfl)]
@[simp] theorem State.vramCapture_mar (s : State) : (s.vramCapture).mar = s.mar := by unfold State.vramCapture; split <;> [rfl; (split <;> rfl)]
@[simp] theorem State.vramCapture_idr (s : State) : (s.vramCapture).idr = s.idr := by unfold State.vramCapture; split <;> [rfl; (split <;> rfl)]
@[simp] theorem State.vramCapture_odr (s : State) : (s.vramCapture).odr = s.odr := by unfold State.vramCapture; split <;> [rfl; (split <;> rfl)]
@[simp] theorem State.vramCapture_ir (s : State) : (s.vramCapture).ir = s.ir := by unfold State.vramCapture; split <;> [rfl; (split <;> rfl)]
@[simp] theorem State.vramCapture_outp1 (s : State) : (s.vramCapture).outp1 = s.outp1 := by unfold State.vramCapture; split <;> [rfl; (split <;> rfl)]
@[simp] theorem State.vramCapture_outp2 (s : State) : (s.vramCapture).outp2 = s.outp2 := by unfold State.vramCapture; split <;> [rfl; (split <;> rfl)]
@[simp] theorem State.vramCapture_ackLine (s : State) : (s.vramCapture).ackLine = s.ackLine := by unfold State.vramCapture; split <;> [rfl; (split <;> rfl)]
@[simp] theorem State.vramCapture_sgrLine (s : State) : (s.vramCapture).sgrLine = s.sgrLine := by unfold State.vramCapture; split <;> [rfl; (split <;> rfl)]
@[simp] theorem State.vramCapture_halted (s : State) : (s.vramCapture).halted = s.halted := by unfold State.vramCapture; split <;> [rfl; (split <;> rfl)]
@[simp] theorem State.vramCapture_v1 (s : State) : (s.vramCapture).v1 = (if s.outp2 = 0xff then s.outp1 else s.v1) := by
  unfold State.vramCapture; split <;> [rfl; (split <;> rfl)]
@[simp] theorem State.vramCapture_v2 (s : State) : (s.vramCapture).v2 = (if s.outp2 = 0xfe then s.outp1 else s.v2) := by
  unfold State.vramCapture; split <;> [(rename_i h; simp [h]); (split <;> simp_all)]
@[simp] theorem State.vramCapture_gl (s : State) : (s.vramCapture).gl = s.gl := by unfold State.vramCapture; split <;> [rfl; (split <;> rfl)]
@[simp] theorem State.vramCapture_mem (s : State) : (s.vramCapture).mem = s.mem := by unfold State.vramCapture; split <;> [rfl; (split <;> rfl)]
@[simp] theorem State.vramCapture_draws (s : State) : (s.vramCapture).draws = s.draws := by unfold State.vramCapture; split <;> [rfl; (split <;> rfl)]
@[simp] theorem State.vramCapture_reg (s : State) (r' : Reg) : (s.vramCapture).reg r' = s.reg r' := by
  simp [State.reg]
@[simp] theorem State.vramCapture_memRead (s : State) (a' : Addr) : (s.vramCapture).memRead a' = s.memRead a' := by
  simp [State.memRead]
@[simp] theorem State.vramCapture_entry (s : State) (i' : Byte) : (s.vramCapture).entry i' = s.entry i' := by
  simp [State.entry]
@[simp] theorem State.vramCapture_address (s : State) (t' : AddrOperand) : (s.vramCapture).address t' = s.address t' := by
  simp [State.address]

/-! ### glLatch -/

@[simp] theorem State.glLatch_cfg (s : State) : (s.glLatch).cfg = s.cfg := rfl
@[simp] theorem State.glLatch_regs (s : State) : (s.glLatch).regs = s.regs := rfl
@[simp] theorem State.glLatch_zf (s : State) : (s.glLatch).zf = s.zf := rfl
@[simp] theorem State.glLatch_cf (s : State) : (s.glLatch).cf = s.cf := rfl
@[simp] theorem State.glLatch_sf (s : State) : (s.glLatch).sf = s.sf := rfl
@[simp] theorem State.glLatch_pc (s : State) : (s.glLatch).pc = s.pc := rfl
@[simp] theorem State.glLatch_sp (s : State) : (s.glLatch).sp = s.sp := rfl
@[simp] theorem State.glLatch_sk (s : State) : (s.glLatch).sk = s.sk := rfl
@[simp] theorem State.glLatch_mar (s : State) : (s.glLatch).mar = s.mar := rfl
@[simp] theorem State.glLatch_idr (s : State) : (s.glLatch).idr = s.idr := rfl
@[simp] theorem State.glLatch_odr (s : State) : (s.glLatch).odr = s.odr := rfl
@[simp] theorem State.glLatch_ir (s : State) : (s.glLatch).ir = s.ir := rfl
@[simp] theorem State.glLatch_outp1 (s : State) : (s.glLatch).outp1 = s.outp1 := rfl
@[simp] theorem State.glLatch_outp2 (s : State) : (s.glLatch).outp2 = s.outp2 := rfl
@[simp] theorem State.glLatch_ackLine (s : State) : (s.glLatch).ackLine = s.ackLine := rfl
@[simp] theorem State.glLatch_sgrLine (s : State) : (s.glLatch).sgrLine = s.sgrLine := rfl
@[simp] theorem State.glLatch_halted (s : State) : (s.glLatch).halted = s.halted := rfl
@[simp] theorem State.glLatch_v1 (s : State) : (s.glLatch).v1 = s.v1 := rfl
@[simp] theorem State.glLatch_v2 (s : State) : (s.glLatch).v2 = s.v2 := rfl
@[simp] theorem State.glLatch_gl (s : State) : (s.glLatch).gl = s.v2 ++ s.v1 := rfl
@[simp] theorem State.glLatch_mem (s : State) : (s.glLatch).mem = s.mem := rfl
@[simp] theorem State.glLatch_draws (s : State) : (s.glLatch).draws = s.draws := rfl
@[simp] theorem State.glLatch_reg (s : State) (r' : Reg) : (s.glLatch).reg r' = s.reg r' := rfl
@[simp] theorem State.glLatch_memRead (s : State) (a' : Addr) : (s.glLatch).memRead a' = s.memRead a' := rfl
@[simp] theorem State.glLatch_entry (s : State) (i' : Byte) : (s.glLatch).entry i' = s.entry i' := rfl
@[simp] theorem State.glLatch_address (s : State) (t' : AddrOperand) : (s.glLatch).address t' = s.address t' := rfl

/-! ### setAck -/

@[simp] theorem State.setAck_cfg (s : State) (x : Bool) : (s.setAck x).cfg = s.cfg := rfl
@[simp] theorem State.setAck_regs (s : State) (x : Bool) : (s.setAck x).regs = s.regs := rfl
@[simp] theorem State.setAck_zf (s : State) (x : Bool) : (s.setAck x).zf = s.zf := rfl
@[simp] theorem State.setAck_cf (s : State) (x : Bool) : (s.setAck x).cf = s.cf := rfl
@[simp] theorem State.setAck_sf (s : State) (x : Bool) : (s.setAck x).sf = s.sf := rfl
@[simp] theorem State.setAck_pc (s : State) (x : Bool) : (s.setAck x).pc = s.pc := rfl
@[simp] theorem State.setAck_sp (s : State) (x : Bool) : (s.setAck x).sp = s.sp := rfl
@[simp] theorem State.setAck_sk (s : State) (x : Bool) : (s.setAck x).sk = s.sk := rfl
@[simp] theorem State.setAck_mar (s : State) (x : Bool) : (s.setAck x).mar = s.mar := rfl
@[simp] theorem State.setAck_idr (s : State) (x : Bool) : (s.setAck x).idr = s.idr := rfl
@[simp] theorem State.setAck_odr (s : State) (x : Bool) : (s.setAck x).odr = s.odr := rfl
@[simp] theorem State.setAck_ir (s : State) (x : Bool) : (s.setAck x).ir = s.ir := rfl
@[simp] theorem State.setAck_outp1 (s : State) (x : Bool) : (s.setAck x).outp1 = s.outp1 := rfl
@[simp] theorem State.setAck_outp2 (s : State) (x : Bool) : (s.setAck x).outp2 = s.outp2 := rfl
@[simp] theorem State.setAck_ackLine (s : State) (x : Bool) : (s.setAck x).ackLine = x := rfl
@[simp] theorem State.setAck_sgrLine (s : State) (x : Bool) : (s.setAck x).sgrLine = s.sgrLine := rfl
@[simp] theorem State.setAck_halted (s : State) (x : Bool) : (s.setAck x).halted = s.halted := rfl
@[simp] theorem State.setAck_v1 (s : State) (x : Bool) : (s.setAck x).v1 = s.v1 := rfl
@[simp] theorem State.setAck_v2 (s : State) (x : Bool) : (s.setAck x).v2 = s.v2 := rfl
@[simp] theorem State.setAck_gl (s : State) (x : Bool) : (s.setAck x).gl = s.gl := rfl
@[simp] theorem State.setAck_mem (s : State) (x : Bool) : (s.setAck x).mem = s.mem := rfl
@[simp] theorem State.setAck_draws (s : State) (x : Bool) : (s.setAck x).draws = s.draws := rfl
@[simp] theorem State.setAck_reg (s : State) (x : Bool) (r' : Reg) : (s.setAck x).reg r' = s.reg r' := rfl
@[simp] theorem State.setAck_memRead (s : State) (x : Bool) (a' : Addr) : (s.setAck x).memRead a' = s.memRead a' := rfl
@[simp] theorem State.setAck_entry (s : State) (x : Bool) (i' : Byte) : (s.setAck x).entry i' = s.entry i' := rfl
@[simp] theorem State.setAck_address (s : State) (x : Bool) (t' : AddrOperand) : (s.setAck x).address t' = s.address t' := rfl

/-! ### setSgr -/

@[simp] theorem State.setSgr_cfg (s : State) (x : Bool) : (s.setSgr x).cfg = s.cfg := rfl
@[simp] theorem State.setSgr_regs (s : State) (x : Bool) : (s.setSgr x).regs = s.regs := rfl
@[simp] theorem State.setSgr_zf (s : State) (x : Bool) : (s.setSgr x).zf = s.zf := rfl
@[simp] theorem State.setSgr_cf (s : State) (x : Bool) : (s.setSgr x).cf = s.cf := rfl
@[simp] theorem State.setSgr_sf (s : State) (x : Bool) : (s.setSgr x).sf = s.sf := rfl
@[simp] theorem State.setSgr_pc (s : State) (x : Bool) : (s.setSgr x).pc = s.pc := rfl
@[simp] theorem State.setSgr_sp (s : State) (x : Bool) : (s.setSgr x).sp = s.sp := rfl
@[simp] theorem State.setSgr_sk (s : State) (x : Bool) : (s.setSgr x).sk = s.sk := rfl
@[simp] theorem State.setSgr_mar (s : State) (x : Bool) : (s.setSgr x).mar = s.mar := rfl
@[simp] theorem State.setSgr_idr (s : State) (x : Bool) : (s.setSgr x).idr = s.idr := rfl
@[simp] theorem State.setSgr_odr (s : State) (x : Bool) : (s.setSgr x).odr = s.odr := rfl
@[simp] theorem State.setSgr_ir (s : State) (x : Bool) : (s.setSgr x).ir = s.ir := rfl
@[simp] theorem State.setSgr_outp1 (s : State) (x : Bool) : (s.setSgr x).outp1 = s.outp1 := rfl
@[simp] theorem State.setSgr_outp2 (s : State) (x : Bool) : (s.setSgr x).outp2 = s.outp2 := rfl
@[simp] theorem State.setSgr_ackLine (s : State) (x : Bool) : (s.setSgr x).ackLine = s.ackLine := rfl
@[simp] theorem State.setSgr_sgrLine (s : State) (x : Bool) : (s.setSgr x).sgrLine = x := rfl
@[simp] theorem State.setSgr_halted (s : State) (x : Bool) : (s.setSgr x).halted = s.halted := rfl
@[simp] theorem State.setSgr_v1 (s : State) (x : Bool) : (s.setSgr x).v1 = s.v1 := rfl
@[simp] theorem State.setSgr_v2 (s : State) (x : Bool) : (s.setSgr x).v2 = s.v2 := rfl
@[simp] theorem State.setSgr_gl (s : State) (x : Bool) : (s.setSgr x).gl = s.gl := rfl
@[simp] theorem State.setSgr_mem (s : State) (x : Bool) : (s.setSgr x).mem = s.mem := rfl
@[simp] theorem State.setSgr_draws (s : State) (x : Bool) : (s.setSgr x).draws = s.draws := rfl
@[simp] theorem State.setSgr_reg (s : State) (x : Bool) (r' : Reg) : (s.setSgr x).reg r' = s.reg r' := rfl
@[simp] theorem State.setSgr_memRead (s : State) (x : Bool) (a' : Addr) : (s.setSgr x).memRead a' = s.memRead a' := rfl
@[simp] theorem State.setSgr_entry (s : State) (x : Bool) (i' : Byte) : (s.setSgr x).entry i' = s.entry i' := rfl
@[simp] theorem State.setSgr_address (s : State) (x : Bool) (t' : AddrOperand) : (s.setSgr x).address t' = s.address t' := rfl

/-! ### powerUp -/

@[simp] theorem State.powerUp_cfg (s : State) : (s.powerUp).cfg = s.cfg := rfl
@[simp] theorem State.powerUp_regs (s : State) : (s.powerUp).regs = s.regs := rfl
@[simp] theorem State.powerUp_zf (s : State) : (s.powerUp).zf = s.zf := rfl
@[simp] theorem State.powerUp_cf (s : State) : (s.powerUp).cf = s.cf := rfl
@[simp] theorem State.powerUp_sf (s : State) : (s.powerUp).sf = s.sf := rfl
@[simp] theorem State.powerUp_pc (s : State) : (s.powerUp).pc = 0x0000 := rfl
@[simp] theorem State.powerUp_sp (s : State) : (s.powerUp).sp = s.sp := rfl
@[simp] theorem State.powerUp_sk (s : State) : (s.powerUp).sk = s.sk := rfl
@[simp] theorem State.powerUp_mar (s : State) : (s.powerUp).mar = s.mar := rfl
@[simp] theorem State.powerUp_idr (s : State) : (s.powerUp).idr = s.idr := rfl
@[simp] theorem State.powerUp_odr (s : State) : (s.powerUp).odr = s.odr := rfl
@[simp] theorem State.powerUp_ir (s : State) : (s.powerUp).ir = s.ir := rfl
@[simp] theorem State.powerUp_outp1 (s : State) : (s.powerUp).outp1 = s.outp1 := rfl
@[simp] theorem State.powerUp_outp2 (s : State) : (s.powerUp).outp2 = s.outp2 := rfl
@[simp] theorem State.powerUp_ackLine (s : State) : (s.powerUp).ackLine = false := rfl
@[simp] theorem State.powerUp_sgrLine (s : State) : (s.powerUp).sgrLine = false := rfl
@[simp] theorem State.powerUp_halted (s : State) : (s.powerUp).halted = false := rfl
@[simp] theorem State.powerUp_v1 (s : State) : (s.powerUp).v1 = s.v1 := rfl
@[simp] theorem State.powerUp_v2 (s : State) : (s.powerUp).v2 = s.v2 := rfl
@[simp] theorem State.powerUp_gl (s : State) : (s.powerUp).gl = s.gl := rfl
@[simp] theorem State.powerUp_mem (s : State) : (s.powerUp).mem = s.mem := rfl
@[simp] theorem State.powerUp_draws (s : State) : (s.powerUp).draws = s.draws := rfl
@[simp] theorem State.powerUp_reg (s : State) (r' : Reg) : (s.powerUp).reg r' = s.reg r' := rfl
@[simp] theorem State.powerUp_memRead (s : State) (a' : Addr) : (s.powerUp).memRead a' = s.memRead a' := rfl
@[simp] theorem State.powerUp_entry (s : State) (i' : Byte) : (s.powerUp).entry i' = s.entry i' := rfl
@[simp] theorem State.powerUp_address (s : State) (t' : AddrOperand) : (s.powerUp).address t' = s.address t' := rfl

/-! ### alu2, what it leaves -/

@[simp] theorem State.alu2_cfg (s : State) (op : Byte → Byte → Byte × Bool) (rd : Reg) (v : Byte) : (s.alu2 op rd v).cfg = s.cfg := rfl
@[simp] theorem State.alu2_pc (s : State) (op : Byte → Byte → Byte × Bool) (rd : Reg) (v : Byte) : (s.alu2 op rd v).pc = s.pc := rfl
@[simp] theorem State.alu2_sp (s : State) (op : Byte → Byte → Byte × Bool) (rd : Reg) (v : Byte) : (s.alu2 op rd v).sp = s.sp := rfl
@[simp] theorem State.alu2_sk (s : State) (op : Byte → Byte → Byte × Bool) (rd : Reg) (v : Byte) : (s.alu2 op rd v).sk = s.sk := rfl
@[simp] theorem State.alu2_mar (s : State) (op : Byte → Byte → Byte × Bool) (rd : Reg) (v : Byte) : (s.alu2 op rd v).mar = s.mar := rfl
@[simp] theorem State.alu2_idr (s : State) (op : Byte → Byte → Byte × Bool) (rd : Reg) (v : Byte) : (s.alu2 op rd v).idr = s.idr := rfl
@[simp] theorem State.alu2_odr (s : State) (op : Byte → Byte → Byte × Bool) (rd : Reg) (v : Byte) : (s.alu2 op rd v).odr = s.odr := rfl
@[simp] theorem State.alu2_ir (s : State) (op : Byte → Byte → Byte × Bool) (rd : Reg) (v : Byte) : (s.alu2 op rd v).ir = s.ir := rfl
@[simp] theorem State.alu2_outp1 (s : State) (op : Byte → Byte → Byte × Bool) (rd : Reg) (v : Byte) : (s.alu2 op rd v).outp1 = s.outp1 := rfl
@[simp] theorem State.alu2_outp2 (s : State) (op : Byte → Byte → Byte × Bool) (rd : Reg) (v : Byte) : (s.alu2 op rd v).outp2 = s.outp2 := rfl
@[simp] theorem State.alu2_ackLine (s : State) (op : Byte → Byte → Byte × Bool) (rd : Reg) (v : Byte) : (s.alu2 op rd v).ackLine = s.ackLine := rfl
@[simp] theorem State.alu2_sgrLine (s : State) (op : Byte → Byte → Byte × Bool) (rd : Reg) (v : Byte) : (s.alu2 op rd v).sgrLine = s.sgrLine := rfl
@[simp] theorem State.alu2_halted (s : State) (op : Byte → Byte → Byte × Bool) (rd : Reg) (v : Byte) : (s.alu2 op rd v).halted = s.halted := rfl
@[simp] theorem State.alu2_v1 (s : State) (op : Byte → Byte → Byte × Bool) (rd : Reg) (v : Byte) : (s.alu2 op rd v).v1 = s.v1 := rfl
@[simp] theorem State.alu2_v2 (s : State) (op : Byte → Byte → Byte × Bool) (rd : Reg) (v : Byte) : (s.alu2 op rd v).v2 = s.v2 := rfl
@[simp] theorem State.alu2_gl (s : State) (op : Byte → Byte → Byte × Bool) (rd : Reg) (v : Byte) : (s.alu2 op rd v).gl = s.gl := rfl
@[simp] theorem State.alu2_mem (s : State) (op : Byte → Byte → Byte × Bool) (rd : Reg) (v : Byte) : (s.alu2 op rd v).mem = s.mem := rfl
@[simp] theorem State.alu2_draws (s : State) (op : Byte → Byte → Byte × Bool) (rd : Reg) (v : Byte) : (s.alu2 op rd v).draws = s.draws := rfl
@[simp] theorem State.alu2_memRead (s : State) (op : Byte → Byte → Byte × Bool) (rd : Reg) (v : Byte) (a' : Addr) : (s.alu2 op rd v).memRead a' = s.memRead a' := rfl
@[simp] theorem State.alu2_entry (s : State) (op : Byte → Byte → Byte × Bool) (rd : Reg) (v : Byte) (i' : Byte) : (s.alu2 op rd v).entry i' = s.entry i' := rfl
@[simp] theorem State.alu2_address (s : State) (op : Byte → Byte → Byte × Bool) (rd : Reg) (v : Byte) (t' : AddrOperand) : (s.alu2 op rd v).address t' = s.address t' := rfl

/-! ### alu1, what it leaves -/

@[simp] theorem State.alu1_cfg (s : State) (op : Byte → Byte × Bool) (rd : Reg) : (s.alu1 op rd).cfg = s.cfg := rfl
@[simp] theorem State.alu1_pc (s : State) (op : Byte → Byte × Bool) (rd : Reg) : (s.alu1 op rd).pc = s.pc := rfl
@[simp] theorem State.alu1_sp (s : State) (op : Byte → Byte × Bool) (rd : Reg) : (s.alu1 op rd).sp = s.sp := rfl
@[simp] theorem State.alu1_sk (s : State) (op : Byte → Byte × Bool) (rd : Reg) : (s.alu1 op rd).sk = s.sk := rfl
@[simp] theorem State.alu1_mar (s : State) (op : Byte → Byte × Bool) (rd : Reg) : (s.alu1 op rd).mar = s.mar := rfl
@[simp] theorem State.alu1_idr (s : State) (op : Byte → Byte × Bool) (rd : Reg) : (s.alu1 op rd).idr = s.idr := rfl
@[simp] theorem State.alu1_odr (s : State) (op : Byte → Byte × Bool) (rd : Reg) : (s.alu1 op rd).odr = s.odr := rfl
@[simp] theorem State.alu1_ir (s : State) (op : Byte → Byte × Bool) (rd : Reg) : (s.alu1 op rd).ir = s.ir := rfl
@[simp] theorem State.alu1_outp1 (s : State) (op : Byte → Byte × Bool) (rd : Reg) : (s.alu1 op rd).outp1 = s.outp1 := rfl
@[simp] theorem State.alu1_outp2 (s : State) (op : Byte → Byte × Bool) (rd : Reg) : (s.alu1 op rd).outp2 = s.outp2 := rfl
@[simp] theorem State.alu1_ackLine (s : State) (op : Byte → Byte × Bool) (rd : Reg) : (s.alu1 op rd).ackLine = s.ackLine := rfl
@[simp] theorem State.alu1_sgrLine (s : State) (op : Byte → Byte × Bool) (rd : Reg) : (s.alu1 op rd).sgrLine = s.sgrLine := rfl
@[simp] theorem State.alu1_halted (s : State) (op : Byte → Byte × Bool) (rd : Reg) : (s.alu1 op rd).halted = s.halted := rfl
@[simp] theorem State.alu1_v1 (s : State) (op : Byte → Byte × Bool) (rd : Reg) : (s.alu1 op rd).v1 = s.v1 := rfl
@[simp] theorem State.alu1_v2 (s : State) (op : Byte → Byte × Bool) (rd : Reg) : (s.alu1 op rd).v2 = s.v2 := rfl
@[simp] theorem State.alu1_gl (s : State) (op : Byte → Byte × Bool) (rd : Reg) : (s.alu1 op rd).gl = s.gl := rfl
@[simp] theorem State.alu1_mem (s : State) (op : Byte → Byte × Bool) (rd : Reg) : (s.alu1 op rd).mem = s.mem := rfl
@[simp] theorem State.alu1_draws (s : State) (op : Byte → Byte × Bool) (rd : Reg) : (s.alu1 op rd).draws = s.draws := rfl
@[simp] theorem State.alu1_memRead (s : State) (op : Byte → Byte × Bool) (rd : Reg) (a' : Addr) : (s.alu1 op rd).memRead a' = s.memRead a' := rfl
@[simp] theorem State.alu1_entry (s : State) (op : Byte → Byte × Bool) (rd : Reg) (i' : Byte) : (s.alu1 op rd).entry i' = s.entry i' := rfl
@[simp] theorem State.alu1_address (s : State) (op : Byte → Byte × Bool) (rd : Reg) (t' : AddrOperand) : (s.alu1 op rd).address t' = s.address t' := rfl

/-! ### alu1i, what it leaves -/

@[simp] theorem State.alu1i_cfg (s : State) (op : Byte → Byte × Bool) (v : Byte) (rd : Reg) : (s.alu1i op v rd).cfg = s.cfg := rfl
@[simp] theorem State.alu1i_zf (s : State) (op : Byte → Byte × Bool) (v : Byte) (rd : Reg) : (s.alu1i op v rd).zf = s.zf := rfl
@[simp] theorem State.alu1i_cf (s : State) (op : Byte → Byte × Bool) (v : Byte) (rd : Reg) : (s.alu1i op v rd).cf = s.cf := rfl
@[simp] theorem State.alu1i_sf (s : State) (op : Byte → Byte × Bool) (v : Byte) (rd : Reg) : (s.alu1i op v rd).sf = s.sf := rfl
@[simp] theorem State.alu1i_pc (s : State) (op : Byte → Byte × Bool) (v : Byte) (rd : Reg) : (s.alu1i op v rd).pc = s.pc := rfl
@[simp] theorem State.alu1i_sp (s : State) (op : Byte → Byte × Bool) (v : Byte) (rd : Reg) : (s.alu1i op v rd).sp = s.sp := rfl
@[simp] theorem State.alu1i_sk (s : State) (op : Byte → Byte × Bool) (v : Byte) (rd : Reg) : (s.alu1i op v rd).sk = s.sk := rfl
@[simp] theorem State.alu1i_mar (s : State) (op : Byte → Byte × Bool) (v : Byte) (rd : Reg) : (s.alu1i op v rd).mar = s.mar := rfl
@[simp] theorem State.alu1i_idr (s : State) (op : Byte → Byte × Bool) (v : Byte) (rd : Reg) : (s.alu1i op v rd).idr = s.idr := rfl
@[simp] theorem State.alu1i_odr (s : State) (op : Byte → Byte × Bool) (v : Byte) (rd : Reg) : (s.alu1i op v rd).odr = s.odr := rfl
@[simp] theorem State.alu1i_ir (s : State) (op : Byte → Byte × Bool) (v : Byte) (rd : Reg) : (s.alu1i op v rd).ir = s.ir := rfl
@[simp] theorem State.alu1i_outp1 (s : State) (op : Byte → Byte × Bool) (v : Byte) (rd : Reg) : (s.alu1i op v rd).outp1 = s.outp1 := rfl
@[simp] theorem State.alu1i_outp2 (s : State) (op : Byte → Byte × Bool) (v : Byte) (rd : Reg) : (s.alu1i op v rd).outp2 = s.outp2 := rfl
@[simp] theorem State.alu1i_ackLine (s : State) (op : Byte → Byte × Bool) (v : Byte) (rd : Reg) : (s.alu1i op v rd).ackLine = s.ackLine := rfl
@[simp] theorem State.alu1i_sgrLine (s : State) (op : Byte → Byte × Bool) (v : Byte) (rd : Reg) : (s.alu1i op v rd).sgrLine = s.sgrLine := rfl
@[simp] theorem State.alu1i_halted (s : State) (op : Byte → Byte × Bool) (v : Byte) (rd : Reg) : (s.alu1i op v rd).halted = s.halted := rfl
@[simp] theorem State.alu1i_v1 (s : State) (op : Byte → Byte × Bool) (v : Byte) (rd : Reg) : (s.alu1i op v rd).v1 = s.v1 := rfl
@[simp] theorem State.alu1i_v2 (s : State) (op : Byte → Byte × Bool) (v : Byte) (rd : Reg) : (s.alu1i op v rd).v2 = s.v2 := rfl
@[simp] theorem State.alu1i_gl (s : State) (op : Byte → Byte × Bool) (v : Byte) (rd : Reg) : (s.alu1i op v rd).gl = s.gl := rfl
@[simp] theorem State.alu1i_mem (s : State) (op : Byte → Byte × Bool) (v : Byte) (rd : Reg) : (s.alu1i op v rd).mem = s.mem := rfl
@[simp] theorem State.alu1i_draws (s : State) (op : Byte → Byte × Bool) (v : Byte) (rd : Reg) : (s.alu1i op v rd).draws = s.draws := rfl
@[simp] theorem State.alu1i_memRead (s : State) (op : Byte → Byte × Bool) (v : Byte) (rd : Reg) (a' : Addr) : (s.alu1i op v rd).memRead a' = s.memRead a' := rfl
@[simp] theorem State.alu1i_entry (s : State) (op : Byte → Byte × Bool) (v : Byte) (rd : Reg) (i' : Byte) : (s.alu1i op v rd).entry i' = s.entry i' := rfl
@[simp] theorem State.alu1i_address (s : State) (op : Byte → Byte × Bool) (v : Byte) (rd : Reg) (t' : AddrOperand) : (s.alu1i op v rd).address t' = s.address t' := rfl

/-! ### jumpIf, what it leaves -/

@[simp] theorem State.jumpIf_cfg (s : State) (c : Bool) (t : AddrOperand) : (s.jumpIf c t).cfg = s.cfg := by cases c <;> rfl
@[simp] theorem State.jumpIf_regs (s : State) (c : Bool) (t : AddrOperand) : (s.jumpIf c t).regs = s.regs := by cases c <;> rfl
@[simp] theorem State.jumpIf_zf (s : State) (c : Bool) (t : AddrOperand) : (s.jumpIf c t).zf = s.zf := by cases c <;> rfl
@[simp] theorem State.jumpIf_cf (s : State) (c : Bool) (t : AddrOperand) : (s.jumpIf c t).cf = s.cf := by cases c <;> rfl
@[simp] theorem State.jumpIf_sf (s : State) (c : Bool) (t : AddrOperand) : (s.jumpIf c t).sf = s.sf := by cases c <;> rfl
@[simp] theorem State.jumpIf_sp (s : State) (c : Bool) (t : AddrOperand) : (s.jumpIf c t).sp = s.sp := by cases c <;> rfl
@[simp] theorem State.jumpIf_sk (s : State) (c : Bool) (t : AddrOperand) : (s.jumpIf c t).sk = s.sk := by cases c <;> rfl
@[simp] theorem State.jumpIf_mar (s : State) (c : Bool) (t : AddrOperand) : (s.jumpIf c t).mar = s.mar := by cases c <;> rfl
@[simp] theorem State.jumpIf_idr (s : State) (c : Bool) (t : AddrOperand) : (s.jumpIf c t).idr = s.idr := by cases c <;> rfl
@[simp] theorem State.jumpIf_odr (s : State) (c : Bool) (t : AddrOperand) : (s.jumpIf c t).odr = s.odr := by cases c <;> rfl
@[simp] theorem State.jumpIf_ir (s : State) (c : Bool) (t : AddrOperand) : (s.jumpIf c t).ir = s.ir := by cases c <;> rfl
@[simp] theorem State.jumpIf_outp1 (s : State) (c : Bool) (t : AddrOperand) : (s.jumpIf c t).outp1 = s.outp1 := by cases c <;> rfl
@[simp] theorem State.jumpIf_outp2 (s : State) (c : Bool) (t : AddrOperand) : (s.jumpIf c t).outp2 = s.outp2 := by cases c <;> rfl
@[simp] theorem State.jumpIf_ackLine (s : State) (c : Bool) (t : AddrOperand) : (s.jumpIf c t).ackLine = s.ackLine := by cases c <;> rfl
@[simp] theorem State.jumpIf_sgrLine (s : State) (c : Bool) (t : AddrOperand) : (s.jumpIf c t).sgrLine = s.sgrLine := by cases c <;> rfl
@[simp] theorem State.jumpIf_halted (s : State) (c : Bool) (t : AddrOperand) : (s.jumpIf c t).halted = s.halted := by cases c <;> rfl
@[simp] theorem State.jumpIf_v1 (s : State) (c : Bool) (t : AddrOperand) : (s.jumpIf c t).v1 = s.v1 := by cases c <;> rfl
@[simp] theorem State.jumpIf_v2 (s : State) (c : Bool) (t : AddrOperand) : (s.jumpIf c t).v2 = s.v2 := by cases c <;> rfl
@[simp] theorem State.jumpIf_gl (s : State) (c : Bool) (t : AddrOperand) : (s.jumpIf c t).gl = s.gl := by cases c <;> rfl
@[simp] theorem State.jumpIf_mem (s : State) (c : Bool) (t : AddrOperand) : (s.jumpIf c t).mem = s.mem := by cases c <;> rfl
@[simp] theorem State.jumpIf_draws (s : State) (c : Bool) (t : AddrOperand) : (s.jumpIf c t).draws = s.draws := by cases c <;> rfl
@[simp] theorem State.jumpIf_reg (s : State) (c : Bool) (t : AddrOperand) (r' : Reg) : (s.jumpIf c t).reg r' = s.reg r' := by
  simp [State.reg]
@[simp] theorem State.jumpIf_memRead (s : State) (c : Bool) (t : AddrOperand) (a' : Addr) : (s.jumpIf c t).memRead a' = s.memRead a' := by
  simp [State.memRead]
@[simp] theorem State.jumpIf_entry (s : State) (c : Bool) (t : AddrOperand) (i' : Byte) : (s.jumpIf c t).entry i' = s.entry i' := by
  simp [State.entry]
@[simp] theorem State.jumpIf_address (s : State) (c : Bool) (t : AddrOperand) (t' : AddrOperand) : (s.jumpIf c t).address t' = s.address t' := by
  simp [State.address]

/-! ### pushByte, what it leaves -/

@[simp] theorem State.pushByte_cfg (s : State) (v : Byte) : (s.pushByte v).cfg = s.cfg := rfl
@[simp] theorem State.pushByte_regs (s : State) (v : Byte) : (s.pushByte v).regs = s.regs := rfl
@[simp] theorem State.pushByte_zf (s : State) (v : Byte) : (s.pushByte v).zf = s.zf := rfl
@[simp] theorem State.pushByte_cf (s : State) (v : Byte) : (s.pushByte v).cf = s.cf := rfl
@[simp] theorem State.pushByte_sf (s : State) (v : Byte) : (s.pushByte v).sf = s.sf := rfl
@[simp] theorem State.pushByte_pc (s : State) (v : Byte) : (s.pushByte v).pc = s.pc := rfl
@[simp] theorem State.pushByte_mar (s : State) (v : Byte) : (s.pushByte v).mar = s.mar := rfl
@[simp] theorem State.pushByte_idr (s : State) (v : Byte) : (s.pushByte v).idr = s.idr := rfl
@[simp] theorem State.pushByte_odr (s : State) (v : Byte) : (s.pushByte v).odr = s.odr := rfl
@[simp] theorem State.pushByte_ir (s : State) (v : Byte) : (s.pushByte v).ir = s.ir := rfl
@[simp] theorem State.pushByte_outp1 (s : State) (v : Byte) : (s.pushByte v).outp1 = s.outp1 := rfl
@[simp] theorem State.pushByte_outp2 (s : State) (v : Byte) : (s.pushByte v).outp2 = s.outp2 := rfl
@[simp] theorem State.pushByte_ackLine (s : State) (v : Byte) : (s.pushByte v).ackLine = s.ackLine := rfl
@[simp] theorem State.pushByte_sgrLine (s : State) (v : Byte) : (s.pushByte v).sgrLine = s.sgrLine := rfl
@[simp] theorem State.pushByte_halted (s : State) (v : Byte) : (s.pushByte v).halted = s.halted := rfl
@[simp] theorem State.pushByte_v1 (s : State) (v : Byte) : (s.pushByte v).v1 = s.v1 := rfl
@[simp] theorem State.pushByte_v2 (s : State) (v : Byte) : (s.pushByte v).v2 = s.v2 := rfl
@[simp] theorem State.pushByte_gl (s : State) (v : Byte) : (s.pushByte v).gl = s.gl := rfl
@[simp] theorem State.pushByte_mem (s : State) (v : Byte) : (s.pushByte v).mem = s.mem := rfl
@[simp] theorem State.pushByte_reg (s : State) (v : Byte) (r' : Reg) : (s.pushByte v).reg r' = s.reg r' := rfl
@[simp] theorem State.pushByte_memRead (s : State) (v : Byte) (a' : Addr) : (s.pushByte v).memRead a' = s.memRead a' := rfl
@[simp] theorem State.pushByte_address (s : State) (v : Byte) (t' : AddrOperand) : (s.pushByte v).address t' = s.address t' := rfl

/-! ### ackPulse, what it leaves -/

@[simp] theorem State.ackPulse_cfg (s : State) : (s.ackPulse).cfg = s.cfg := by unfold State.ackPulse; simp
@[simp] theorem State.ackPulse_regs (s : State) : (s.ackPulse).regs = s.regs := by unfold State.ackPulse; simp
@[simp] theorem State.ackPulse_zf (s : State) : (s.ackPulse).zf = s.zf := by unfold State.ackPulse; simp
@[simp] theorem State.ackPulse_cf (s : State) : (s.ackPulse).cf = s.cf := by unfold State.ackPulse; simp
@[simp] theorem State.ackPulse_sf (s : State) : (s.ackPulse).sf = s.sf := by unfold State.ackPulse; simp
@[simp] theorem State.ackPulse_pc (s : State) : (s.ackPulse).pc = s.pc := by unfold State.ackPulse; simp
@[simp] theorem State.ackPulse_sp (s : State) : (s.ackPulse).sp = s.sp := by unfold State.ackPulse; simp
@[simp] theorem State.ackPulse_sk (s : State) : (s.ackPulse).sk = s.sk := by unfold State.ackPulse; simp
@[simp] theorem State.ackPulse_mar (s : State) : (s.ackPulse).mar = s.mar := by unfold State.ackPulse; simp
@[simp] theorem State.ackPulse_idr (s : State) : (s.ackPulse).idr = s.idr := by unfold State.ackPulse; simp
@[simp] theorem State.ackPulse_odr (s : State) : (s.ackPulse).odr = s.odr := by unfold State.ackPulse; simp
@[simp] theorem State.ackPulse_ir (s : State) : (s.ackPulse).ir = s.ir := by unfold State.ackPulse; simp
@[simp] theorem State.ackPulse_outp1 (s : State) : (s.ackPulse).outp1 = s.outp1 := by unfold State.ackPulse; simp
@[simp] theorem State.ackPulse_outp2 (s : State) : (s.ackPulse).outp2 = s.outp2 := by unfold State.ackPulse; simp
@[simp] theorem State.ackPulse_sgrLine (s : State) : (s.ackPulse).sgrLine = s.sgrLine := by unfold State.ackPulse; simp
@[simp] theorem State.ackPulse_halted (s : State) : (s.ackPulse).halted = s.halted := by unfold State.ackPulse; simp
@[simp] theorem State.ackPulse_gl (s : State) : (s.ackPulse).gl = s.gl := by unfold State.ackPulse; simp
@[simp] theorem State.ackPulse_mem (s : State) : (s.ackPulse).mem = s.mem := by unfold State.ackPulse; simp
@[simp] theorem State.ackPulse_draws (s : State) : (s.ackPulse).draws = s.draws := by unfold State.ackPulse; simp
@[simp] theorem State.ackPulse_reg (s : State) (r' : Reg) : (s.ackPulse).reg r' = s.reg r' := by
  simp [State.reg]
@[simp] theorem State.ackPulse_memRead (s : State) (a' : Addr) : (s.ackPulse).memRead a' = s.memRead a' := by
  simp [State.memRead]
@[simp] theorem State.ackPulse_entry (s : State) (i' : Byte) : (s.ackPulse).entry i' = s.entry i' := by
  simp [State.entry]
@[simp] theorem State.ackPulse_address (s : State) (t' : AddrOperand) : (s.ackPulse).address t' = s.address t' := by
  simp [State.address]

/-! ### sgrPulse, what it leaves -/

@[simp] theorem State.sgrPulse_cfg (s : State) : (s.sgrPulse).cfg = s.cfg := rfl
@[simp] theorem State.sgrPulse_regs (s : State) : (s.sgrPulse).regs = s.regs := rfl
@[simp] theorem State.sgrPulse_zf (s : State) : (s.sgrPulse).zf = s.zf := rfl
@[simp] theorem State.sgrPulse_cf (s : State) : (s.sgrPulse).cf = s.cf := rfl
@[simp] theorem State.sgrPulse_sf (s : State) : (s.sgrPulse).sf = s.sf := rfl
@[simp] theorem State.sgrPulse_pc (s : State) : (s.sgrPulse).pc = s.pc := rfl
@[simp] theorem State.sgrPulse_sp (s : State) : (s.sgrPulse).sp = s.sp := rfl
@[simp] theorem State.sgrPulse_sk (s : State) : (s.sgrPulse).sk = s.sk := rfl
@[simp] theorem State.sgrPulse_mar (s : State) : (s.sgrPulse).mar = s.mar := rfl
@[simp] theorem State.sgrPulse_idr (s : State) : (s.sgrPulse).idr = s.idr := rfl
@[simp] theorem State.sgrPulse_odr (s : State) : (s.sgrPulse).odr = s.odr := rfl
@[simp] theorem State.sgrPulse_ir (s : State) : (s.sgrPulse).ir = s.ir := rfl
@[simp] theorem State.sgrPulse_outp1 (s : State) : (s.sgrPulse).outp1 = s.outp1 := rfl
@[simp] theorem State.sgrPulse_outp2 (s : State) : (s.sgrPulse).outp2 = s.outp2 := rfl
@[simp] theorem State.sgrPulse_ackLine (s : State) : (s.sgrPulse).ackLine = s.ackLine := rfl
@[simp] theorem State.sgrPulse_halted (s : State) : (s.sgrPulse).halted = s.halted := rfl
@[simp] theorem State.sgrPulse_v1 (s : State) : (s.sgrPulse).v1 = s.v1 := rfl
@[simp] theorem State.sgrPulse_v2 (s : State) : (s.sgrPulse).v2 = s.v2 := rfl
@[simp] theorem State.sgrPulse_mem (s : State) : (s.sgrPulse).mem = s.mem := rfl
@[simp] theorem State.sgrPulse_draws (s : State) : (s.sgrPulse).draws = s.draws := rfl
@[simp] theorem State.sgrPulse_reg (s : State) (r' : Reg) : (s.sgrPulse).reg r' = s.reg r' := rfl
@[simp] theorem State.sgrPulse_memRead (s : State) (a' : Addr) : (s.sgrPulse).memRead a' = s.memRead a' := rfl
@[simp] theorem State.sgrPulse_entry (s : State) (i' : Byte) : (s.sgrPulse).entry i' = s.entry i' := rfl
@[simp] theorem State.sgrPulse_address (s : State) (t' : AddrOperand) : (s.sgrPulse).address t' = s.address t' := rfl

/-! ### latchFetch, what it leaves -/

@[simp] theorem State.latchFetch_cfg (s : State) (n : Nat) : (s.latchFetch n).cfg = s.cfg := rfl
@[simp] theorem State.latchFetch_regs (s : State) (n : Nat) : (s.latchFetch n).regs = s.regs := rfl
@[simp] theorem State.latchFetch_zf (s : State) (n : Nat) : (s.latchFetch n).zf = s.zf := rfl
@[simp] theorem State.latchFetch_cf (s : State) (n : Nat) : (s.latchFetch n).cf = s.cf := rfl
@[simp] theorem State.latchFetch_sf (s : State) (n : Nat) : (s.latchFetch n).sf = s.sf := rfl
@[simp] theorem State.latchFetch_pc (s : State) (n : Nat) : (s.latchFetch n).pc = s.pc := rfl
@[simp] theorem State.latchFetch_sp (s : State) (n : Nat) : (s.latchFetch n).sp = s.sp := rfl
@[simp] theorem State.latchFetch_sk (s : State) (n : Nat) : (s.latchFetch n).sk = s.sk := rfl
@[simp] theorem State.latchFetch_idr (s : State) (n : Nat) : (s.latchFetch n).idr = s.idr := rfl
@[simp] theorem State.latchFetch_outp1 (s : State) (n : Nat) : (s.latchFetch n).outp1 = s.outp1 := rfl
@[simp] theorem State.latchFetch_outp2 (s : State) (n : Nat) : (s.latchFetch n).outp2 = s.outp2 := rfl
@[simp] theorem State.latchFetch_ackLine (s : State) (n : Nat) : (s.latchFetch n).ackLine = s.ackLine := rfl
@[simp] theorem State.latchFetch_sgrLine (s : State) (n : Nat) : (s.latchFetch n).sgrLine = s.sgrLine := rfl
@[simp] theorem State.latchFetch_halted (s : State) (n : Nat) : (s.latchFetch n).halted = s.halted := rfl
@[simp] theorem State.latchFetch_v1 (s : State) (n : Nat) : (s.latchFetch n).v1 = s.v1 := rfl
@[simp] theorem State.latchFetch_v2 (s : State) (n : Nat) : (s.latchFetch n).v2 = s.v2 := rfl
@[simp] theorem State.latchFetch_gl (s : State) (n : Nat) : (s.latchFetch n).gl = s.gl := rfl
@[simp] theorem State.latchFetch_mem (s : State) (n : Nat) : (s.latchFetch n).mem = s.mem := rfl
@[simp] theorem State.latchFetch_draws (s : State) (n : Nat) : (s.latchFetch n).draws = s.draws := rfl
@[simp] theorem State.latchFetch_reg (s : State) (n : Nat) (r' : Reg) : (s.latchFetch n).reg r' = s.reg r' := rfl
@[simp] theorem State.latchFetch_memRead (s : State) (n : Nat) (a' : Addr) : (s.latchFetch n).memRead a' = s.memRead a' := rfl
@[simp] theorem State.latchFetch_entry (s : State) (n : Nat) (i' : Byte) : (s.latchFetch n).entry i' = s.entry i' := rfl
@[simp] theorem State.latchFetch_address (s : State) (n : Nat) (t' : AddrOperand) : (s.latchFetch n).address t' = s.address t' := rfl

/-! ### What the pulses, a pushed byte and a halt write -/

@[simp] theorem State.pushByte_draws (s : State) (v : Byte) : (s.pushByte v).draws = s.draws + 1 := rfl
@[simp] theorem State.ackPulse_ackLine (s : State) : s.ackPulse.ackLine = false := rfl
@[simp] theorem State.sgrPulse_sgrLine (s : State) : s.sgrPulse.sgrLine = false := rfl
@[simp] theorem State.sgrPulse_gl (s : State) : s.sgrPulse.gl = s.v2 ++ s.v1 := rfl

theorem State.ackPulse_v1 (s : State) : s.ackPulse.v1 = if s.outp2 = 0xff then s.outp1 else s.v1 :=
  State.vramCapture_v1 (s.setAck true)

theorem State.ackPulse_v2 (s : State) : s.ackPulse.v2 = if s.outp2 = 0xfe then s.outp1 else s.v2 :=
  State.vramCapture_v2 (s.setAck true)

end Sys2Proof.Machine
end

