-- ==== Sys2Proof/Laws/Memory.lean ====
section
/-! SUPPORT. Memory: read after write, the canonical form kept by every operation, and equal reads make equal memories. -/

namespace Sys2Proof.Machine

@[simp] theorem Memory.get_nil (a : Nat) : Memory.get [] a = Config.unwrittenByte := rfl

theorem Memory.get_cons (c : Host.Cell) (m : Memory) (a : Nat) :
    Memory.get (c :: m) a = if c.1 = a then c.2 else Memory.get m a := rfl

/-- Dropping one address's entries leaves every other address as it was. -/
theorem Memory.get_filter_ne (m : Memory) {a a' : Nat} (h : a' ≠ a) :
    Memory.get (m.filter (fun c => c.1 ≠ a)) a' = Memory.get m a' := by
  induction m with
  | nil => rfl
  | cons c m ih =>
    by_cases hc : c.1 = a
    · have : c.1 ≠ a' := fun e => h (e ▸ hc)
      simpa [List.filter_cons, hc, Memory.get_cons, this, h.symm] using ih
    · by_cases ha : c.1 = a' <;> simp_all [Memory.get_cons]

/-- An address none of whose entries is left reads as an unlisted one. -/
theorem Memory.get_of_not_listed (m : Memory) (a : Nat) (h : ∀ c ∈ m, c.1 ≠ a) :
    Memory.get m a = Config.unwrittenByte := by
  induction m with
  | nil => rfl
  | cons c m ih =>
    rw [Memory.get_cons, if_neg (h c (by simp))]
    exact ih fun x hx => h x (by simp [hx])

theorem Memory.get_filter_self (m : Memory) (a : Nat) :
    Memory.get (m.filter (fun c => c.1 ≠ a)) a = Config.unwrittenByte :=
  Memory.get_of_not_listed _ _ (by simp)

theorem Memory.get_insert_ne (c : Host.Cell) (m : Memory) {a : Nat} (h : c.1 ≠ a) :
    Memory.get (Memory.insert c m) a = Memory.get m a := by
  induction m with
  | nil => simp [Memory.insert, Memory.get_cons, h]
  | cons x m ih =>
    unfold Memory.insert
    split
    · simp [Memory.get_cons, h]
    · simp [Memory.get_cons, ih]

theorem Memory.get_insert_self (c : Host.Cell) (m : Memory) (h : ∀ x ∈ m, x.1 ≠ c.1) :
    Memory.get (Memory.insert c m) c.1 = c.2 := by
  induction m with
  | nil => simp [Memory.insert, Memory.get_cons]
  | cons x m ih =>
    unfold Memory.insert
    split
    · simp [Memory.get_cons]
    · rw [Memory.get_cons, if_neg (h x (by simp))]
      exact ih fun y hy => h y (by simp [hy])

/-- A read after a write of the same address gives the byte written. -/
@[simp] theorem Memory.get_set_self (m : Memory) (a : Nat) (v : Byte) : (Memory.set m a v).get a = v := by
  unfold Memory.set
  split
  · next h => rw [Memory.get_filter_self, h]
  · exact Memory.get_insert_self (a, v) _ (by simp)

/-- A write leaves every other address as it was. -/
theorem Memory.get_set_ne (m : Memory) {a a' : Nat} (v : Byte) (h : a' ≠ a) :
    (Memory.set m a v).get a' = m.get a' := by
  unfold Memory.set
  split
  · exact Memory.get_filter_ne m h
  · rw [Memory.get_insert_ne _ _ (fun e => h e.symm), Memory.get_filter_ne m h]

theorem Memory.mem_insert (c x : Host.Cell) (m : Memory) : x ∈ Memory.insert c m ↔ x = c ∨ x ∈ m := by
  induction m with
  | nil => simp [Memory.insert]
  | cons y m ih =>
    unfold Memory.insert
    split
    · simp
    · simp [ih, or_left_comm]

theorem Memory.insert_rising (c : Host.Cell) (m : Memory) (hm : m.Pairwise (fun x y => x.1 < y.1))
    (h : ∀ x ∈ m, x.1 ≠ c.1) : (Memory.insert c m).Pairwise (fun x y => x.1 < y.1) := by
  induction m with
  | nil => simp [Memory.insert]
  | cons x m ih =>
    obtain ⟨hx, hm'⟩ := List.pairwise_cons.1 hm
    unfold Memory.insert
    split
    · next hlt =>
      refine List.pairwise_cons.2 ⟨fun y hy => ?_, hm⟩
      rcases List.mem_cons.1 hy with rfl | hy
      · exact hlt
      · exact hlt.trans (hx y hy)
    · next hge =>
      refine List.pairwise_cons.2 ⟨fun y hy => ?_, ih hm' fun y hy => h y (by simp [hy])⟩
      rcases (Memory.mem_insert c y m).1 hy with rfl | hy
      · have := h x (by simp)
        omega
      · exact hx y hy

/-- A filtered memory is in canonical form if the memory is. -/
theorem Memory.wf_filter (m : Memory) (p : Host.Cell → Bool) (h : m.wf) : Memory.wf (m.filter p) :=
  ⟨h.1.filter _, fun c hc => h.2 c (List.mem_of_mem_filter hc)⟩

/-- A write of a backed address keeps the canonical form. -/
theorem Memory.wf_set (m : Memory) (a : Nat) (v : Byte) (h : m.wf) (ha : a < 65536) : (Memory.set m a v).wf := by
  have hf := Memory.wf_filter m (fun c => decide (c.1 ≠ a)) h
  unfold Memory.set
  split
  · exact hf
  · next hv =>
    refine ⟨Memory.insert_rising _ _ hf.1 (by simp), fun c hc => ?_⟩
    rcases (Memory.mem_insert _ c _).1 hc with rfl | hc
    · exact ⟨ha, hv⟩
    · exact hf.2 c hc

/-- Reset's memory is in canonical form. -/
theorem reset_mem_wf : State.reset.mem.wf := by decide

/-- Two memories in canonical form that read alike at every address are the same list. -/
theorem Memory.ext_of_get (m n : Memory) (hm : m.wf) (hn : n.wf) (h : ∀ a, m.get a = n.get a) : m = n := by
  induction m generalizing n with
  | nil =>
    cases n with
    | nil => rfl
    | cons y n =>
      have := h y.1
      rw [Memory.get_nil, Memory.get_cons, if_pos rfl] at this
      exact absurd this.symm (hn.2 y (by simp)).2
  | cons x m ih =>
    have below : ∀ (k : Memory) (c : Host.Cell), (c :: k).Pairwise (fun x y => x.1 < y.1) → ∀ a, a ≤ c.1 →
        Memory.get k a = Config.unwrittenByte := by
      intro k c hk a ha
      exact Memory.get_of_not_listed _ _ fun y hy => by
        have := (List.pairwise_cons.1 hk).1 y hy
        omega
    have tail : ∀ (k : Memory) (c : Host.Cell), Memory.wf (c :: k) → Memory.wf k := fun k c hk =>
      ⟨(List.pairwise_cons.1 hk.1).2, fun y hy => hk.2 y (by simp [hy])⟩
    cases n with
    | nil =>
      have := h x.1
      rw [Memory.get_nil, Memory.get_cons, if_pos rfl] at this
      exact absurd this (hm.2 x (by simp)).2
    | cons y n =>
      have key : x.1 = y.1 := by
        rcases Nat.lt_trichotomy x.1 y.1 with hlt | heq | hgt
        · have := h x.1
          rw [Memory.get_cons, if_pos rfl, Memory.get_cons, if_neg (by omega), below n y hn.1 _ hlt.le] at this
          exact absurd this (hm.2 x (by simp)).2
        · exact heq
        · have := h y.1
          rw [Memory.get_cons, if_neg (by omega), below m x hm.1 _ hgt.le, Memory.get_cons, if_pos rfl] at this
          exact absurd this.symm (hn.2 y (by simp)).2
      have val : x.2 = y.2 := by
        have := h x.1
        rwa [Memory.get_cons, if_pos rfl, Memory.get_cons, if_pos key.symm] at this
      have rest : m = n := by
        refine ih n (tail m x hm) (tail n y hn) fun a => ?_
        by_cases ha : x.1 = a
        · subst ha
          rw [below m x hm.1 _ le_rfl, below n y hn.1 _ key.le]
        · have := h a
          rwa [Memory.get_cons, if_neg ha, Memory.get_cons, if_neg (by omega)] at this
      rw [rest, Prod.ext key val]

/-! ### The two halves of a memory, as a power cycle puts them together -/

/-- The ROM half of one memory before the RAM half of another reads as the one below 0x8000 and as the other from there. -/
theorem Memory.get_halves (m n : Memory) (a : Nat) :
    Memory.get (m.filter (fun c => c.1 < 0x8000) ++ n.filter (fun c => ¬ c.1 < 0x8000)) a =
      if a < 0x8000 then m.get a else n.get a := by
  induction m with
  | nil =>
    induction n with
    | nil => simp
    | cons c n ih =>
      rw [List.filter_nil, List.nil_append] at ih ⊢
      by_cases hc : c.1 < 0x8000
      · rw [List.filter_cons_of_neg (by simpa using hc), ih]
        by_cases ha : a < 0x8000
        · rw [if_pos ha, if_pos ha]
        · rw [if_neg ha, if_neg ha, Memory.get_cons, if_neg (by omega)]
      · rw [List.filter_cons_of_pos (by simpa using hc), Memory.get_cons, ih]
        by_cases ha : a < 0x8000
        · rw [if_pos ha, if_pos ha, if_neg (by omega)]
        · rw [if_neg ha, if_neg ha, Memory.get_cons]
  | cons c m ih =>
    by_cases hc : c.1 < 0x8000
    · rw [List.filter_cons_of_pos (by simpa using hc), List.cons_append, Memory.get_cons, ih]
      by_cases ha : a < 0x8000
      · rw [if_pos ha, if_pos ha, Memory.get_cons]
      · rw [if_neg ha, if_neg ha, if_neg (by omega)]
    · rw [List.filter_cons_of_neg (by simpa using hc), ih]
      by_cases ha : a < 0x8000
      · rw [if_pos ha, if_pos ha, Memory.get_cons, if_neg (by omega)]
      · rw [if_neg ha, if_neg ha]

/-- The two halves are in canonical form if the memories are. -/
theorem Memory.wf_halves (m n : Memory) (hm : m.wf) (hn : n.wf) :
    Memory.wf (m.filter (fun c => c.1 < 0x8000) ++ n.filter (fun c => ¬ c.1 < 0x8000)) := by
  refine ⟨List.pairwise_append.2 ⟨hm.1.filter _, hn.1.filter _, fun x hx y hy => ?_⟩, fun c hc => ?_⟩
  · have h1 := of_decide_eq_true (List.mem_filter.1 hx).2
    have h2 := of_decide_eq_true (List.mem_filter.1 hy).2
    omega
  · rcases List.mem_append.1 hc with hc | hc
    · exact hm.2 c (List.mem_of_mem_filter hc)
    · exact hn.2 c (List.mem_of_mem_filter hc)

/-! ### Through the state -/

@[simp] theorem State.memRead_poke_self (s : State) (a : Addr) (v : Byte) : (s.poke a v).memRead a = v := by
  simp [State.memRead]

theorem State.memRead_poke_ne (s : State) {a a' : Addr} (v : Byte) (h : a' ≠ a) :
    (s.poke a v).memRead a' = s.memRead a' := by
  simp only [State.memRead, State.poke_mem]
  exact Memory.get_set_ne _ _ fun e => h (BitVec.eq_of_toNat_eq e)

/-- Putting a byte keeps the canonical form. -/
theorem State.poke_wf (s : State) (a : Addr) (v : Byte) (h : s.mem.wf) : (s.poke a v).mem.wf :=
  Memory.wf_set _ _ _ h a.isLt

/-- An address is in RAM exactly from 0x8000 on (20_memory.md R50). -/
theorem inRAM_iff (a : Addr) : inRAM a = true ↔ 0x8000 ≤ a.toNat := by
  simp [inRAM, BitVec.msb_eq_decide]

/-- All `memWrite?` can do: put the byte in RAM, or nothing in ROM. -/
theorem State.memWrite?_cases (s : State) (a : Addr) (v : Byte) :
    (0x8000 ≤ a.toNat ∧ s.memWrite? a v = some (s.poke a v)) ∨ (a.toNat < 0x8000 ∧ s.memWrite? a v = none) := by
  unfold State.memWrite?
  by_cases h : inRAM a = true
  · exact .inl ⟨(inRAM_iff a).1 h, by simp [h]⟩
  · exact .inr ⟨by have := mt (inRAM_iff a).2 h; omega, by simp [h]⟩

end Sys2Proof.Machine
end

