-- ==== Sys2Proof/Laws/Ops.lean ====
section
/-! SUPPORT. What each shared operation can do, once: registers, the stack, the ALU routing, fetch, and the outcomes of
the shared instruction shapes. -/

namespace Sys2Proof.Machine

/-! ### Registers -/

/-- A register read after a register write. -/
theorem Regs.get_set (x : Regs) (r r' : Reg) (v : Byte) : (x.set r v).get r' = if r' = r then v else x.get r' := by
  cases r <;> cases r' <;> rfl

theorem State.reg_setReg (s : State) (r r' : Reg) (v : Byte) :
    (s.setReg r v).reg r' = if r' = r then v else s.reg r' := Regs.get_set _ _ _ _

@[simp] theorem State.reg_setReg_self (s : State) (r : Reg) (v : Byte) : (s.setReg r v).reg r = v := by
  simp [State.reg_setReg]

theorem State.reg_setReg_ne (s : State) {r r' : Reg} (v : Byte) (h : r' ≠ r) : (s.setReg r v).reg r' = s.reg r' := by
  simp [State.reg_setReg, h]

/-! ### Stack -/

/-- A pushed entry is the top. -/
@[simp] theorem State.top_push16 (s : State) (e : Entry) : (s.push16 e).top = e := by
  simp [State.top, State.entry, State.push16]

/-- A push leaves every entry but the new top. -/
theorem State.entry_push16 (s : State) (e : Entry) (i : Byte) :
    (s.push16 e).entry i = if i = s.sp + 1 then e else s.entry i := by
  unfold State.entry State.push16
  by_cases h : i = s.sp + 1
  · subst h; simp
  · have : (s.sp + 1).toNat ≠ i.toNat := fun e => h (BitVec.eq_of_toNat_eq e).symm
    simp only [h, if_false]
    exact Vector.getElem_set_ne _ _ this

/-- A pop puts the stack pointer back where it was before the push. -/
@[simp] theorem State.sp_pop16_push16 (s : State) (e : Entry) : (s.push16 e).pop16.sp = s.sp := by
  simp

/-- Bits of two bytes put together. -/
theorem getLsbD_append_bytes (x y : Byte) (i : Nat) :
    (x ++ y : Addr).getLsbD i = if i < 8 then y.getLsbD i else x.getLsbD (i - 8) := BitVec.getLsbD_append

/-- The number two bytes put together stand for. -/
theorem toNat_append_bytes (x y : Byte) : (x ++ y : Addr).toNat = 256 * x.toNat + y.toNat := by
  have h : (x ++ y : Addr).toNat = x.toNat <<< 8 ||| y.toNat := BitVec.toNat_append x y
  rw [h, Nat.shiftLeft_eq, Nat.mul_comm]
  exact (Nat.two_pow_add_eq_or_of_lt y.isLt x.toNat).symm

/-- The two halves of an address, put together again. -/
@[simp] theorem entryAddr_addrEntry (a : Addr) : entryAddr (addrEntry a) = a := by
  refine BitVec.eq_of_getLsbD_eq fun i hi => ?_
  simp only [entryAddr, addrEntry, getLsbD_append_bytes, BitVec.getLsbD_extractLsb']
  split
  · simp [*]
  · have h1 : i - 8 < 8 := by omega
    have h2 : 8 + (i - 8) = i := by omega
    simp [h1, h2]

/-! ### The ALU routing -/

/-- The left operand and the result of the routing: destination B reads the right operand (R114). -/
theorem State.reg_alu2 (s : State) (op : Byte → Byte → Byte × Bool) (rd r : Reg) (v : Byte) :
    (s.alu2 op rd v).reg r =
      let x := (op (if rd = .b then v else s.reg rd) v).1
      if r = rd ∨ r = .a then x else if r = .b then v else s.reg r := by
  cases rd <;> cases r <;> rfl

theorem State.zf_alu2 (s : State) (op : Byte → Byte → Byte × Bool) (rd : Reg) (v : Byte) :
    (s.alu2 op rd v).zf = decide ((op (if rd = .b then v else s.reg rd) v).1 = 0x00) := by
  cases rd <;> rfl

theorem State.sf_alu2 (s : State) (op : Byte → Byte → Byte × Bool) (rd : Reg) (v : Byte) :
    (s.alu2 op rd v).sf = (op (if rd = .b then v else s.reg rd) v).1.msb := by
  cases rd <;> rfl

theorem State.cf_alu2 (s : State) (op : Byte → Byte → Byte × Bool) (rd : Reg) (v : Byte) :
    (s.alu2 op rd v).cf = (op (if rd = .b then v else s.reg rd) v).2 := by
  cases rd <;> rfl

/-- All the shape of a two-operand ALU instruction can answer: the routed next state, or the refusal under ALU_ALIAS. -/
theorem alu2Instr_cases (op : Byte → Byte → Byte × Bool) (n : Nat) (rd : Reg) (v : Byte) (rightIsB : Bool) (len : Nat)
    (s : State) :
    (aliasRefused s.cfg.aluAlias rd rightIsB = false ∧
      alu2Instr op n rd v rightIsB len s = .next (((s.alu2 op rd v).countDraws n).advance len)) ∨
    (s.cfg.aluAlias = .refuse ∧ rd = .b ∧ rightIsB = false ∧
      alu2Instr op n rd v rightIsB len s = .refused .aluDestinationB) := by
  unfold alu2Instr
  cases h : aliasRefused s.cfg.aluAlias rd rightIsB with
  | false => exact .inl ⟨rfl, by simp⟩
  | true =>
    simp only [aliasRefused, Bool.and_eq_true, decide_eq_true_eq, Bool.not_eq_true'] at h
    exact .inr ⟨h.1.1, h.1.2, h.2, by simp⟩

/-- When the refusal does not apply. -/
theorem aliasRefused_eq_false {k : AluAlias} {rd : Reg} {rightIsB : Bool}
    (h : k = .sequence ∨ rd ≠ .b ∨ rightIsB = true) : aliasRefused k rd rightIsB = false := by
  rcases h with rfl | h | rfl <;> simp [aliasRefused, *]

theorem State.reg_alu1 (s : State) (op : Byte → Byte × Bool) (rd r : Reg) :
    (s.alu1 op rd).reg r = if r = rd ∨ r = .a then (op (s.reg rd)).1 else s.reg r := by
  cases rd <;> cases r <;> rfl

theorem State.zf_alu1 (s : State) (op : Byte → Byte × Bool) (rd : Reg) :
    (s.alu1 op rd).zf = decide ((op (s.reg rd)).1 = 0x00) := by
  cases rd <;> rfl

theorem State.sf_alu1 (s : State) (op : Byte → Byte × Bool) (rd : Reg) :
    (s.alu1 op rd).sf = (op (s.reg rd)).1.msb := by
  cases rd <;> rfl

theorem State.cf_alu1 (s : State) (op : Byte → Byte × Bool) (rd : Reg) :
    (s.alu1 op rd).cf =
      shiftCarry s.cfg.shiftCarry s.cf (Config.shiftCarryDraw s.draws) (op (s.reg rd)).2 := by
  cases rd <;> rfl

theorem State.reg_alu1i (s : State) (op : Byte → Byte × Bool) (v : Byte) (rd r : Reg) :
    (s.alu1i op v rd).reg r = if r = rd ∨ r = .a then (op v).1 else s.reg r := by
  cases rd <;> cases r <;> rfl

/-! ### The rotate and shift values, bit by bit (R190) -/

theorem getLsbD_append_1_7 (x : BitVec 1) (y : BitVec 7) (i : Nat) :
    (x ++ y : Byte).getLsbD i = if i < 7 then y.getLsbD i else x.getLsbD (i - 7) := BitVec.getLsbD_append

theorem getLsbD_append_7_1 (x : BitVec 7) (y : BitVec 1) (i : Nat) :
    (x ++ y : Byte).getLsbD i = if i < 1 then y.getLsbD i else x.getLsbD (i - 1) := BitVec.getLsbD_append

/-- A byte moved down with a bit entering at the top, bit by bit. -/
theorem movedDown_bits (c : Bool) (a : Byte) :
    (BitVec.ofBool c ++ a.extractLsb' 1 7 : Byte).getLsbD 7 = c ∧
      ∀ i, i < 7 → (BitVec.ofBool c ++ a.extractLsb' 1 7 : Byte).getLsbD i = a.getLsbD (i + 1) := by
  refine ⟨?_, fun i hi => ?_⟩
  · rw [getLsbD_append_1_7]; simp
  · rw [getLsbD_append_1_7, if_pos hi, BitVec.getLsbD_extractLsb', Nat.add_comm]; simp [hi]

/-- A byte moved up with a bit entering at the bottom, bit by bit. -/
theorem movedUp_bits (c : Bool) (a : Byte) :
    (a.extractLsb' 0 7 ++ BitVec.ofBool c : Byte).getLsbD 0 = c ∧
      ∀ i, i < 7 → (a.extractLsb' 0 7 ++ BitVec.ofBool c : Byte).getLsbD (i + 1) = a.getLsbD i := by
  refine ⟨?_, fun i hi => ?_⟩
  · rw [getLsbD_append_7_1]; simp
  · rw [getLsbD_append_7_1, if_neg (by omega), BitVec.getLsbD_extractLsb']; simp [hi]

theorem ror8_bits (k : RotateKind) (cf : Bool) (a : Byte) :
    (ror8 k cf a).1.getLsbD 7 = rotateBit k cf (a.getLsbD 0) ∧
      ∀ i, i < 7 → (ror8 k cf a).1.getLsbD i = a.getLsbD (i + 1) := movedDown_bits _ a

theorem rol8_bits (k : RotateKind) (cf : Bool) (a : Byte) :
    (rol8 k cf a).1.getLsbD 0 = rotateBit k cf (a.getLsbD 7) ∧
      ∀ i, i < 7 → (rol8 k cf a).1.getLsbD (i + 1) = a.getLsbD i := movedUp_bits _ a

theorem shr8_bits (k : ShiftFill) (a : Byte) :
    (shr8 k a).1.getLsbD 7 = (match k with | .zero => false | .signCopy => a.getLsbD 7) ∧
      ∀ i, i < 7 → (shr8 k a).1.getLsbD i = a.getLsbD (i + 1) := movedDown_bits _ a

theorem shl8_bits (a : Byte) :
    (shl8 a).1.getLsbD 0 = false ∧ ∀ i, i < 7 → (shl8 a).1.getLsbD (i + 1) = a.getLsbD i := movedUp_bits _ a

/-! ### Fetch and step -/

/-- The first byte fetched is the one at the `pc`. -/
@[simp] theorem State.fetch8_zero (s : State) : s.fetch8 0 = s.memRead s.pc := by
  simp [State.fetch8]

@[simp] theorem State.latchFetch_ir (s : State) (n : Nat) : (s.latchFetch n).ir = s.memRead s.pc := by
  simp [State.latchFetch]

@[simp] theorem State.latchFetch_mar (s : State) (n : Nat) :
    (s.latchFetch n).mar = s.pc + BitVec.ofNat 16 (n - 1) := rfl

@[simp] theorem State.latchFetch_odr (s : State) (n : Nat) :
    (s.latchFetch n).odr = s.memRead (s.pc + BitVec.ofNat 16 (n - 1)) := rfl

/-- All a step can do: nothing when halted, else run what decodes, or raise the decode fault. -/
theorem step_cases (s : State) :
    (s.halted = true ∧ step s = .next s) ∨
    (s.halted = false ∧ ∃ i, s.fetchDecode = .ok i ∧ step s = exec i (s.latchFetch i.length)) ∨
    (s.halted = false ∧ ∃ e, s.fetchDecode = .error e ∧ step s = .fault (decodeFault s.pc e)) := by
  unfold step
  cases hh : s.halted with
  | true => exact .inl ⟨rfl, by simp⟩
  | false =>
    cases hd : s.fetchDecode with
    | ok i => exact .inr (.inl ⟨rfl, i, rfl, by simp⟩)
    | error e => exact .inr (.inr ⟨rfl, e, rfl, by simp [raise]⟩)

/-- All a `store` can do (R172): put the byte and latch the access, or raise StoreToROM. -/
theorem execStore_cases (r : Reg) (x : AddrOperand) (s : State) :
    (0x8000 ≤ (s.address x).toNat ∧ execStore r x s =
      .next (((s.poke (s.address x) (s.reg r)).latchWrite (s.address x) (s.reg r)).advance 4)) ∨
    ((s.address x).toNat < 0x8000 ∧ execStore r x s = .fault (.storeToROM (s.address x) s.pc)) := by
  rcases State.memWrite?_cases s (s.address x) (s.reg r) with ⟨h, e⟩ | ⟨h, e⟩
  · exact .inl ⟨h, by simp [execStore, e]⟩
  · exact .inr ⟨h, by simp [execStore, e, raise]⟩

end Sys2Proof.Machine
end

