-- ==== Sys2Proof/Laws/PerInstr.lean ====
section
/-! SUPPORT. Per instruction: its encoding has the length of its format, and its first byte selects that format. -/

namespace Sys2Proof

/-- The encoding of an instruction is as long as its format, and its first byte selects that format (R81, R83). -/
def Laws.EncodedShape.Statement (i : Instr) : Prop :=
  (encode i).length = i.length ∧ (encode i).head?.bind formatOf = some i.format

theorem Laws.EncodedShape.ldi (v : Byte) (r : Reg) : Laws.EncodedShape.Statement (.ldi v r) := ⟨rfl, rfl⟩
theorem Laws.EncodedShape.adi (v : Byte) (r : Reg) : Laws.EncodedShape.Statement (.adi v r) := ⟨rfl, rfl⟩
theorem Laws.EncodedShape.sbi (v : Byte) (r : Reg) : Laws.EncodedShape.Statement (.sbi v r) := ⟨rfl, rfl⟩
theorem Laws.EncodedShape.sub (rd : Reg) (rs : Reg) : Laws.EncodedShape.Statement (.sub rd rs) := ⟨rfl, rfl⟩
theorem Laws.EncodedShape.add (rd : Reg) (rs : Reg) : Laws.EncodedShape.Statement (.add rd rs) := ⟨rfl, rfl⟩
theorem Laws.EncodedShape.xor (rd : Reg) (rs : Reg) : Laws.EncodedShape.Statement (.xor rd rs) := ⟨rfl, rfl⟩
theorem Laws.EncodedShape.nand (rd : Reg) (rs : Reg) : Laws.EncodedShape.Statement (.nand rd rs) := ⟨rfl, rfl⟩
theorem Laws.EncodedShape.jmp (t : AddrOperand) : Laws.EncodedShape.Statement (.jmp t) := ⟨rfl, rfl⟩
theorem Laws.EncodedShape.jc (t : AddrOperand) : Laws.EncodedShape.Statement (.jc t) := ⟨rfl, rfl⟩
theorem Laws.EncodedShape.jnc (t : AddrOperand) : Laws.EncodedShape.Statement (.jnc t) := ⟨rfl, rfl⟩
theorem Laws.EncodedShape.jz (t : AddrOperand) : Laws.EncodedShape.Statement (.jz t) := ⟨rfl, rfl⟩
theorem Laws.EncodedShape.jnz (t : AddrOperand) : Laws.EncodedShape.Statement (.jnz t) := ⟨rfl, rfl⟩
theorem Laws.EncodedShape.jm (t : AddrOperand) : Laws.EncodedShape.Statement (.jm t) := ⟨rfl, rfl⟩
theorem Laws.EncodedShape.jp (t : AddrOperand) : Laws.EncodedShape.Statement (.jp t) := ⟨rfl, rfl⟩
theorem Laws.EncodedShape.call (t : AddrOperand) : Laws.EncodedShape.Statement (.call t) := ⟨rfl, rfl⟩
theorem Laws.EncodedShape.rts : Laws.EncodedShape.Statement .rts := ⟨rfl, rfl⟩
theorem Laws.EncodedShape.phi (v : Byte) : Laws.EncodedShape.Statement (.phi v) := ⟨rfl, rfl⟩
theorem Laws.EncodedShape.push (r : Reg) : Laws.EncodedShape.Statement (.push r) := ⟨rfl, rfl⟩
theorem Laws.EncodedShape.pull (r : Reg) : Laws.EncodedShape.Statement (.pull r) := ⟨rfl, rfl⟩
theorem Laws.EncodedShape.move (r1 : Reg) (r2 : Reg) : Laws.EncodedShape.Statement (.move r1 r2) := ⟨rfl, rfl⟩
theorem Laws.EncodedShape.load (t : AddrOperand) (r : Reg) : Laws.EncodedShape.Statement (.load t r) := ⟨rfl, rfl⟩
theorem Laws.EncodedShape.store (r : Reg) (t : AddrOperand) : Laws.EncodedShape.Statement (.store r t) := ⟨rfl, rfl⟩
theorem Laws.EncodedShape.dcr (r : Reg) : Laws.EncodedShape.Statement (.dcr r) := ⟨rfl, rfl⟩
theorem Laws.EncodedShape.inc (r : Reg) : Laws.EncodedShape.Statement (.inc r) := ⟨rfl, rfl⟩
theorem Laws.EncodedShape.hlt : Laws.EncodedShape.Statement .hlt := ⟨rfl, rfl⟩
theorem Laws.EncodedShape.nop : Laws.EncodedShape.Statement .nop := ⟨rfl, rfl⟩
theorem Laws.EncodedShape.ror (r : Reg) : Laws.EncodedShape.Statement (.ror r) := ⟨rfl, rfl⟩
theorem Laws.EncodedShape.rol (r : Reg) : Laws.EncodedShape.Statement (.rol r) := ⟨rfl, rfl⟩
theorem Laws.EncodedShape.rri (v : Byte) (r : Reg) : Laws.EncodedShape.Statement (.rri v r) := ⟨rfl, rfl⟩
theorem Laws.EncodedShape.rli (v : Byte) (r : Reg) : Laws.EncodedShape.Statement (.rli v r) := ⟨rfl, rfl⟩
theorem Laws.EncodedShape.sfr (r : Reg) : Laws.EncodedShape.Statement (.sfr r) := ⟨rfl, rfl⟩
theorem Laws.EncodedShape.sfl (r : Reg) : Laws.EncodedShape.Statement (.sfl r) := ⟨rfl, rfl⟩
theorem Laws.EncodedShape.sli (v : Byte) (r : Reg) : Laws.EncodedShape.Statement (.sli v r) := ⟨rfl, rfl⟩
theorem Laws.EncodedShape.sri (v : Byte) (r : Reg) : Laws.EncodedShape.Statement (.sri v r) := ⟨rfl, rfl⟩
theorem Laws.EncodedShape.in_ (p : Port) (r : Reg) : Laws.EncodedShape.Statement (.in_ p r) := ⟨rfl, rfl⟩
theorem Laws.EncodedShape.out (r : Reg) (p : Port) : Laws.EncodedShape.Statement (.out r p) := ⟨rfl, rfl⟩
theorem Laws.EncodedShape.xri (v : Byte) (r : Reg) : Laws.EncodedShape.Statement (.xri v r) := ⟨rfl, rfl⟩
theorem Laws.EncodedShape.nandi (v : Byte) (r : Reg) : Laws.EncodedShape.Statement (.nandi v r) := ⟨rfl, rfl⟩
theorem Laws.EncodedShape.sgr : Laws.EncodedShape.Statement .sgr := ⟨rfl, rfl⟩

end Sys2Proof
end

