-- ==== Sys2Proof/Machine/Assembly.lean ====
section
/-! DEFINITION. How an instruction is written: mnemonic, operands in assembly order, and the listing of its bytes
(30_encoding.md R97 to R99; 92_eei_decisions.md D36). No assembler is described (00_scope.md R5); this is the notation only. -/

namespace Sys2Proof.Machine

/-- The mnemonic, in lower case (R97). -/
def mnemonic : Instr → String
  | .ldi _ _ => "ldi"
  | .adi _ _ => "adi"
  | .sbi _ _ => "sbi"
  | .sub _ _ => "sub"
  | .add _ _ => "add"
  | .xor _ _ => "xor"
  | .nand _ _ => "nand"
  | .jmp _ => "jmp"
  | .jc _ => "jc"
  | .jnc _ => "jnc"
  | .jz _ => "jz"
  | .jnz _ => "jnz"
  | .jm _ => "jm"
  | .jp _ => "jp"
  | .call _ => "call"
  | .rts => "rts"
  | .phi _ => "phi"
  | .push _ => "push"
  | .pull _ => "pull"
  | .move _ _ => "move"
  | .load _ _ => "load"
  | .store _ _ => "store"
  | .dcr _ => "dcr"
  | .inc _ => "inc"
  | .hlt => "hlt"
  | .nop => "nop"
  | .ror _ => "ror"
  | .rol _ => "rol"
  | .rri _ _ => "rri"
  | .rli _ _ => "rli"
  | .sfr _ => "sfr"
  | .sfl _ => "sfl"
  | .sli _ _ => "sli"
  | .sri _ _ => "sri"
  | .in_ _ _ => "in"
  | .out _ _ => "out"
  | .xri _ _ => "xri"
  | .nandi _ _ => "nandi"
  | .sgr => "sgr"

/-- A register's letter (R98). -/
def regText : Reg → String
  | .a => "A"
  | .b => "B"
  | .c => "C"
  | .d => "D"
  | .e => "E"
  | .f => "F"
  | .g => "G"
  | .h => "H"

/-- A port's digit (R98). -/
def portText : Port → String
  | .p1 => "1"
  | .p2 => "2"

/-- One hexadecimal digit. -/
def hexDigit (n : Nat) : String :=
  ["0", "1", "2", "3", "4", "5", "6", "7", "8", "9", "a", "b", "c", "d", "e", "f"].getD (n % 16) ""

/-- Two hexadecimal digits, lower case, as the source lists bytes (R99). -/
def hexByte (v : Byte) : String := hexDigit (v.toNat / 16) ++ hexDigit v.toNat

/-- A Value in assembly (R98). -/
def valueText (v : Byte) : String := "0x" ++ hexByte v

/-- An Address in assembly: the 16-bit address it stands for, four digits (R98). -/
def addressText (o : AddrOrder) (t : AddrOperand) : String :=
  match o with
  | .lowFirst => "0x" ++ hexByte t.a2 ++ hexByte t.a1
  | .highFirst => "0x" ++ hexByte t.a1 ++ hexByte t.a2

/-- The operands as written: a comma where one of them is a Value, an Address or a Port-no, a space between two
registers (90_conflicts.md C9). -/
def operandText (o : AddrOrder) : Instr → String
  | .ldi v r | .adi v r | .sbi v r | .rri v r | .rli v r | .sli v r | .sri v r | .xri v r | .nandi v r =>
    valueText v ++ ", " ++ regText r
  | .sub x y | .add x y | .xor x y | .nand x y | .move x y => regText x ++ " " ++ regText y
  | .jmp t | .jc t | .jnc t | .jz t | .jnz t | .jm t | .jp t | .call t => addressText o t
  | .rts | .hlt | .nop | .sgr => ""
  | .phi v => valueText v
  | .push r | .pull r | .dcr r | .inc r | .ror r | .rol r | .sfr r | .sfl r => regText r
  | .load t r => addressText o t ++ ", " ++ regText r
  | .store r t => regText r ++ ", " ++ addressText o t
  | .in_ p r => portText p ++ ", " ++ regText r
  | .out r p => regText r ++ ", " ++ portText p

/-- The assembly line of an instruction (R98). -/
def assemblyLine (o : AddrOrder) (i : Instr) : String :=
  match operandText o i with
  | "" => mnemonic i
  | t => mnemonic i ++ " " ++ t

/-- The listing of an instruction's bytes (R99). -/
def byteListing (i : Instr) : String := " ".intercalate ((encode i).map hexByte)

end Sys2Proof.Machine
end

