-- ==== Sys2Proof/Tests/Slice0.lean ====
section
/-! SUPPORT. Tests, each with its source in the spec, and the witnesses of the statements' hypotheses. -/

namespace Sys2Proof.Tests

open Sys2Proof.Machine

/-! ### Helpers -/

/-- The parameters with both carries settled, so that tests can name CF. -/
def settled : Config := { Config.standard with subCarry := .borrow, logicCarry := .unchanged }

/-- Registers as 95_test_vectors.md section 2.4 has them: A = 0x10, B = 0x03. -/
def regs0 : Regs := ⟨0x10, 0x03, 0, 0, 0, 0, 0, 0⟩

/-- A running machine at 0x0100, where the vectors place their instruction, with four bytes from there on. -/
def machine (c : Config) (x : Regs) (b0 b1 b2 b3 : Byte) : State :=
  { State.reset with cfg := c, regs := x, pc := 0x0100 }.loadAtPc b0 b1 b2 b3

/-- What one step leaves, looked at by `f`. -/
def after {α : Type} (s : State) (f : State → α) : Option α :=
  match step s with
  | .next t => some (f t)
  | _ => none

/-- The fault one step raises, if it does. -/
def faultOf (s : State) : Option Fault :=
  match step s with
  | .fault x => some x
  | _ => none

/-- Whether one step is refused. -/
def refusedBy (s : State) : Option Refusal :=
  match step s with
  | .refused x => some x
  | _ => none

/-- The three flags in the vectors' order. -/
def flags (s : State) : Bool × Bool × Bool := (s.zf, s.sf, s.cf)

/-! ### Decoding: one word of every row of table T-R95, written out byte by byte (30_encoding.md R82, R95) -/

theorem test_decode_ldi : decodeList [0xc3, 0x0f, 0x00] = .ok (.ldi 0x0f .a) := rfl
theorem test_decode_adi : decodeList [0x89, 0xea, 0x05] = .ok (.adi 0xea .f) := rfl
theorem test_decode_sbi : decodeList [0x8a, 0xea, 0x05] = .ok (.sbi 0xea .f) := rfl
theorem test_decode_sub : decodeList [0x70, 0x06, 0x03] = .ok (.sub .g .d) := rfl
theorem test_decode_add : decodeList [0x71, 0x06, 0x03] = .ok (.add .g .d) := rfl
theorem test_decode_xor : decodeList [0x88, 0x06, 0x07] = .ok (.xor .g .h) := rfl
theorem test_decode_nand : decodeList [0x85, 0x06, 0x07] = .ok (.nand .g .h) := rfl
theorem test_decode_jmp : decodeList [0x01, 0x34, 0x12] = .ok (.jmp ⟨0x34, 0x12⟩) := rfl
theorem test_decode_jc : decodeList [0x02, 0x34, 0x12] = .ok (.jc ⟨0x34, 0x12⟩) := rfl
theorem test_decode_jnc : decodeList [0x03, 0x34, 0x12] = .ok (.jnc ⟨0x34, 0x12⟩) := rfl
theorem test_decode_jz : decodeList [0x04, 0x34, 0x12] = .ok (.jz ⟨0x34, 0x12⟩) := rfl
theorem test_decode_jnz : decodeList [0x05, 0x34, 0x12] = .ok (.jnz ⟨0x34, 0x12⟩) := rfl
theorem test_decode_jm : decodeList [0x06, 0x34, 0x12] = .ok (.jm ⟨0x34, 0x12⟩) := rfl
theorem test_decode_jp : decodeList [0x07, 0x34, 0x12] = .ok (.jp ⟨0x34, 0x12⟩) := rfl
theorem test_decode_call : decodeList [0x50, 0x10, 0x00] = .ok (.call ⟨0x10, 0x00⟩) := rfl
theorem test_decode_rts : decodeList [0x51] = .ok .rts := rfl
theorem test_decode_phi : decodeList [0x40, 0x7e] = .ok (.phi 0x7e) := rfl
theorem test_decode_push : decodeList [0x41, 0x04] = .ok (.push .e) := rfl
theorem test_decode_pull : decodeList [0x42, 0x05] = .ok (.pull .f) := rfl
theorem test_decode_move : decodeList [0x20, 0x02, 0x03] = .ok (.move .c .d) := rfl
theorem test_decode_load : decodeList [0x10, 0x10, 0x80, 0x06] = .ok (.load ⟨0x10, 0x80⟩ .g) := rfl
theorem test_decode_store : decodeList [0x11, 0x03, 0x00, 0x80] = .ok (.store .d ⟨0x00, 0x80⟩) := rfl
theorem test_decode_dcr : decodeList [0xa0, 0x02] = .ok (.dcr .c) := rfl
theorem test_decode_inc : decodeList [0xa1, 0x03] = .ok (.inc .d) := rfl
theorem test_decode_hlt : decodeList [0xff] = .ok .hlt := rfl
theorem test_decode_nop : decodeList [0xfe] = .ok .nop := rfl
theorem test_decode_ror : decodeList [0xe0, 0x04] = .ok (.ror .e) := rfl
theorem test_decode_rol : decodeList [0xe1, 0x04] = .ok (.rol .e) := rfl
theorem test_decode_rri : decodeList [0xe2, 0x81, 0x05] = .ok (.rri 0x81 .f) := rfl
theorem test_decode_rli : decodeList [0xe3, 0x81, 0x05] = .ok (.rli 0x81 .f) := rfl
theorem test_decode_sfr : decodeList [0xe4, 0x04] = .ok (.sfr .e) := rfl
theorem test_decode_sfl : decodeList [0xe5, 0x04] = .ok (.sfl .e) := rfl
theorem test_decode_sli : decodeList [0xe6, 0x81, 0x05] = .ok (.sli 0x81 .f) := rfl
theorem test_decode_sri : decodeList [0xe7, 0x81, 0x05] = .ok (.sri 0x81 .f) := rfl
theorem test_decode_in : decodeList [0xb0, 0x01, 0x02] = .ok (.in_ .p1 .c) := rfl
theorem test_decode_out : decodeList [0xb1, 0x02, 0x02] = .ok (.out .c .p2) := rfl
theorem test_decode_xri : decodeList [0xd0, 0x0f, 0x02] = .ok (.xri 0x0f .c) := rfl
theorem test_decode_nandi : decodeList [0xd1, 0xff, 0x03] = .ok (.nandi 0xff .d) := rfl
theorem test_decode_sgr : decodeList [0xb8] = .ok .sgr := rfl

/-- The opcode table's numbering: byte 0 in bits 7..0. `add G D` is 71 06 03. -/
theorem test_table_word : decodeTableWord 24 0x030671 = some (.add .g .d) := rfl

/-- The bits above the row's length are zero: the row `add` with no operand bits is `add A A`. -/
theorem test_table_word_short : decodeTableWord 8 0x030671 = some (.add .a .a) := rfl

/-! ### How an instruction is written (30_encoding.md R98, R99; the listing of example E1) -/

theorem test_line_ldi : assemblyLine .lowFirst (.ldi 0x0f .a) = "ldi 0x0f, A" := by decide
theorem test_line_add : assemblyLine .lowFirst (.add .g .d) = "add G D" := by decide
theorem test_line_store : assemblyLine .lowFirst (.store .e ⟨0x10, 0x80⟩) = "store E, 0x8010" := by decide
theorem test_listing : byteListing (.ldi 0x0f .a) = "c3 0f 00" := by decide

/-! ### Smoke test: an ill-formed term for each check, which the check refuses -/

/-- 0x00 is no opcode (R93). -/
theorem test_ill_opcode : wellFormedBytes [0x00, 0x00, 0x00, 0x00] = false := by decide
/-- 0x08 names no register (R85): `ldi`, and `move` in its second register. -/
theorem test_ill_register : wellFormedBytes [0xc3, 0x0f, 0x08] = false := by decide
theorem test_ill_second_register : wellFormedBytes [0x20, 0x07, 0x08] = false := by decide
/-- Ports 0 and 3 do not exist (R86). -/
theorem test_ill_port : wellFormedBytes [0xb0, 0x00, 0x02] = false := by decide
theorem test_ill_out_port : wellFormedBytes [0xb1, 0x02, 0x03] = false := by decide
/-- An instruction cut short (R81). -/
theorem test_ill_short : wellFormedBytes [0x11, 0x03, 0x00] = false := by decide
theorem test_ill_empty : wellFormedBytes [] = false := by decide
/-- A pin map with two bits on one pin (60_exceptions.md R266). -/
theorem test_ill_pins : Config.wf { Config.standard with glPinMap := Vector.replicate 16 0 } = false := by decide
/-- Bytes at the last legal values pass. -/
theorem test_well_formed : wellFormedBytes [0x20, 0x07, 0x07] = true ∧ wellFormedBytes [0xb1, 0x07, 0x02] = true ∧
    wellFormedBytes [0x11, 0x07, 0xff, 0xff] = true ∧ Config.standard.wf = true := by decide

/-! ### One step: the arithmetic instructions (95_test_vectors.md 2.1 to 2.4, 2.9, 2.13; section 5) -/

theorem test_ldi : after (machine settled regs0 0xc3 0xff 0x02 0)
    (fun t => (t.regs.c, t.regs.a, t.regs.b, flags t, t.pc)) = some (0xff, 0x10, 0x03, (false, false, false), 0x0103) := rfl
theorem test_adi_carry : after (machine settled { regs0 with f := 0x20 } 0x89 0xea 0x05 0)
    (fun t => (t.regs.f, t.regs.a, t.regs.b, flags t, t.pc)) = some (0x0a, 0x0a, 0xea, (false, false, true), 0x0103) := rfl
theorem test_adi_destination_b : after (machine settled regs0 0x89 0x05 0x01 0)
    (fun t => (t.regs.a, t.regs.b, flags t)) = some (0x0a, 0x0a, (false, false, false)) := rfl
theorem test_sbi_borrow : after (machine settled { regs0 with c := 0x12 } 0x8a 0x34 0x02 0)
    (fun t => (t.regs.c, t.regs.a, t.regs.b, flags t)) = some (0xde, 0xde, 0x34, (false, true, true)) := rfl
theorem test_sbi_not_borrow : after (machine { settled with subCarry := .notBorrow } { regs0 with c := 0x12 } 0x8a 0x34 0x02 0)
    (fun t => (t.regs.c, flags t)) = some (0xde, (false, true, false)) := rfl
theorem test_add_right_operand_a : after (machine settled { regs0 with g := 0x05 } 0x71 0x06 0x00 0)
    (fun t => (t.regs.g, t.regs.a, t.regs.b, flags t)) = some (0x15, 0x15, 0x10, (false, false, false)) := rfl
theorem test_add_b_a : after (machine settled regs0 0x71 0x01 0x00 0)
    (fun t => (t.regs.a, t.regs.b, flags t)) = some (0x20, 0x20, (false, false, false)) := rfl
theorem test_sub : after (machine settled { regs0 with g := 0x12, d := 0x34 } 0x70 0x06 0x03 0)
    (fun t => (t.regs.g, t.regs.d, t.regs.a, t.regs.b, flags t)) = some (0xde, 0x34, 0xde, 0x34, (false, true, true)) := rfl
theorem test_sub_a_b : after (machine { settled with subCarry := .notBorrow } regs0 0x70 0x00 0x01 0)
    (fun t => (t.regs.a, t.regs.b, flags t)) = some (0x0d, 0x03, (false, false, true)) := rfl
theorem test_xor : after (machine settled { regs0 with g := 0xaa, d := 0xaa } 0x88 0x06 0x03 0)
    (fun t => (t.regs.g, t.regs.a, t.regs.b, flags t)) = some (0x00, 0x00, 0xaa, (true, false, false)) := rfl
theorem test_xor_any_carry : after (machine { settled with logicCarry := .any } { regs0 with g := 0xf0, d := 0x0f } 0x88 0x06 0x03 0)
    (fun t => (t.regs.g, t.zf, t.sf, t.draws)) = some (0xff, false, true, 1) := rfl
theorem test_nand : after (machine settled { regs0 with g := 0x80, d := 0x80 } 0x85 0x06 0x03 0)
    (fun t => (t.regs.g, t.regs.a, t.regs.b, flags t)) = some (0x7f, 0x7f, 0x80, (false, false, false)) := rfl
theorem test_xri : after (machine settled { regs0 with c := 0xf0 } 0xd0 0x0f 0x02 0)
    (fun t => (t.regs.c, t.regs.a, t.regs.b, flags t)) = some (0xff, 0xff, 0x0f, (false, true, false)) := rfl
theorem test_nandi : after (machine settled { regs0 with d := 0xf6 } 0xd1 0xff 0x03 0)
    (fun t => (t.regs.d, t.regs.a, t.regs.b, flags t)) = some (0x09, 0x09, 0xff, (false, false, false)) := rfl
theorem test_inc_wraps : after (machine settled { regs0 with d := 0xff } 0xa1 0x03 0 0)
    (fun t => (t.regs.d, t.regs.a, t.regs.b, flags t, t.pc)) = some (0x00, 0x00, 0x01, (true, false, true), 0x0102) := rfl
theorem test_inc_b : after (machine settled regs0 0xa1 0x01 0 0)
    (fun t => (t.regs.a, t.regs.b, flags t)) = some (0x02, 0x02, (false, false, false)) := rfl
theorem test_dcr_wraps : after (machine settled { regs0 with c := 0x00 } 0xa0 0x02 0 0)
    (fun t => (t.regs.c, t.regs.a, t.regs.b, flags t, t.pc)) = some (0xff, 0xff, 0x01, (false, true, true), 0x0102) := rfl
theorem test_dcr_not_borrow : after (machine { settled with subCarry := .notBorrow } { regs0 with c := 0x05 } 0xa0 0x02 0 0)
    (fun t => (t.regs.c, flags t)) = some (0x04, (false, false, true)) := rfl
/-- ALU_ALIAS = Refuse (section 5): `add B A` is given no meaning, `add B B` is. -/
theorem test_refuse : refusedBy (machine { settled with aluAlias := .refuse } regs0 0x71 0x01 0x00 0) =
    some .aluDestinationB := by decide
theorem test_refuse_not : after (machine { settled with aluAlias := .refuse } regs0 0x71 0x01 0x01 0)
    (fun t => (t.regs.a, t.regs.b)) = some (0x06, 0x06) := by decide

/-! ### Rotates and shifts (2.10, 2.11) -/

theorem test_ror : after (machine settled { regs0 with e := 0x81 } 0xe0 0x04 0 0)
    (fun t => (t.regs.e, t.regs.a, t.regs.b, flags t, t.pc)) = some (0xc0, 0xc0, 0x03, (false, true, true), 0x0102) := rfl
theorem test_ror_through_carry : after (machine { settled with rotateKind := .throughCarry9 } { regs0 with e := 0x81 } 0xe0 0x04 0 0)
    (fun t => (t.regs.e, t.regs.a, flags t)) = some (0x40, 0x40, (false, false, true)) := rfl
theorem test_rol : after (machine settled { regs0 with e := 0xa5 } 0xe1 0x04 0 0)
    (fun t => (t.regs.e, t.regs.a, t.regs.b, flags t, t.pc)) = some (0x4b, 0x4b, 0x03, (false, false, true), 0x0102) := rfl
theorem test_sfr : after (machine settled { regs0 with e := 0x81 } 0xe4 0x04 0 0)
    (fun t => (t.regs.e, t.regs.a, t.regs.b, flags t, t.pc)) = some (0x40, 0x40, 0x03, (false, false, true), 0x0102) := rfl
theorem test_sfr_sign_copy : after (machine { settled with shiftFill := .signCopy } { regs0 with e := 0x80 } 0xe4 0x04 0 0)
    (fun t => (t.regs.e, flags t)) = some (0xc0, (false, true, false)) := rfl
theorem test_sfl : after (machine settled { regs0 with e := 0x80 } 0xe5 0x04 0 0)
    (fun t => (t.regs.e, t.regs.a, t.regs.b, flags t, t.pc)) = some (0x00, 0x00, 0x03, (true, false, true), 0x0102) := rfl
theorem test_sfl_carry_unchanged : after (machine { settled with shiftCarry := .unchanged } { regs0 with e := 0x80 } 0xe5 0x04 0 0)
    (fun t => (t.regs.e, flags t)) = some (0x00, (true, false, false)) := rfl
/-- The check of the no-flags rule: before ZF = 1, SF = 0, CF = 1, F = 0x99, B = 0x77. -/
theorem test_rri : after { machine settled { regs0 with b := 0x77, f := 0x99 } 0xe2 0x01 0x05 0 with zf := true, cf := true }
    (fun t => (t.regs.f, t.regs.a, t.regs.b, flags t, t.pc)) = some (0x80, 0x80, 0x77, (true, false, true), 0x0103) := rfl
theorem test_sri : after { machine settled { regs0 with b := 0x77, f := 0x99 } 0xe7 0x01 0x05 0 with zf := true, cf := true }
    (fun t => (t.regs.f, t.regs.a, t.regs.b, flags t, t.pc)) = some (0x00, 0x00, 0x77, (true, false, true), 0x0103) := rfl
theorem test_rli : after (machine settled { regs0 with f := 0x99 } 0xe3 0x81 0x05 0)
    (fun t => (t.regs.f, t.regs.a, t.regs.b, flags t)) = some (0x03, 0x03, 0x03, (false, false, false)) := rfl
theorem test_sli : after (machine settled { regs0 with f := 0x99 } 0xe6 0x81 0x05 0)
    (fun t => (t.regs.f, t.regs.a, t.regs.b, flags t)) = some (0x02, 0x02, 0x03, (false, false, false)) := rfl

/-! ### Control transfer (2.5, 2.6; section 5) -/

theorem test_jmp : after (machine settled regs0 0x01 0x34 0x12 0)
    (fun t => t.pc) = some (0x1234) := rfl
theorem test_jmp_high_first : after (machine { settled with addrOrder := .highFirst } regs0 0x01 0x34 0x12 0)
    (fun t => t.pc) = some (0x3412) := rfl
theorem test_jc_set : after { machine settled regs0 0x02 0x34 0x12 0 with cf := true } (fun t => t.pc) = some 0x1234 := by decide
theorem test_jc_clear : after { machine settled regs0 0x02 0x34 0x12 0 with cf := false } (fun t => t.pc) = some 0x0103 := by decide
theorem test_jnc_set : after { machine settled regs0 0x03 0x34 0x12 0 with cf := true } (fun t => t.pc) = some 0x0103 := by decide
theorem test_jnc_clear : after { machine settled regs0 0x03 0x34 0x12 0 with cf := false } (fun t => t.pc) = some 0x1234 := by decide
theorem test_jz_set : after { machine settled regs0 0x04 0x34 0x12 0 with zf := true } (fun t => t.pc) = some 0x1234 := by decide
theorem test_jz_clear : after { machine settled regs0 0x04 0x34 0x12 0 with zf := false } (fun t => t.pc) = some 0x0103 := by decide
theorem test_jnz_set : after { machine settled regs0 0x05 0x34 0x12 0 with zf := true } (fun t => t.pc) = some 0x0103 := by decide
theorem test_jnz_clear : after { machine settled regs0 0x05 0x34 0x12 0 with zf := false } (fun t => t.pc) = some 0x1234 := by decide
theorem test_jm_set : after { machine settled regs0 0x06 0x34 0x12 0 with sf := true } (fun t => t.pc) = some 0x1234 := by decide
theorem test_jm_clear : after { machine settled regs0 0x06 0x34 0x12 0 with sf := false } (fun t => t.pc) = some 0x0103 := by decide
theorem test_jp_set : after { machine settled regs0 0x07 0x34 0x12 0 with sf := true } (fun t => t.pc) = some 0x0103 := by decide
theorem test_jp_clear : after { machine settled regs0 0x07 0x34 0x12 0 with sf := false } (fun t => t.pc) = some 0x1234 := by decide
/-- A not-taken jump at 0xFFFD ends at 0x0000 (10_state.md R27). -/
theorem test_pc_wraps : after ({ machine settled regs0 0 0 0 0 with pc := 0xfffd }.loadAtPc 0x02 0x34 0x12 0)
    (fun t => t.pc) = some 0x0000 := by decide
theorem test_call : after (machine settled regs0 0x50 0x00 0x02 0) (fun t => (t.pc, t.sp, t.top)) =
    some (0x0200, 1, ⟨0x01, 0x03⟩) := by decide
/-- SP wraps from 0xFF to 0x00 (10_state.md R31); a `call` at 0xFFFD pushes 0x0000 (2.6). -/
theorem test_call_wraps :
    after ({ machine settled regs0 0 0 0 0 with pc := 0xfffd, sp := 0xff }.loadAtPc 0x50 0x10 0x00 0)
      (fun t => (t.pc, t.sp, t.top)) = some (0x0010, 0, ⟨0x00, 0x00⟩) := by decide
theorem test_rts : after ((machine settled regs0 0x51 0 0 0).push16 ⟨0x02, 0x03⟩) (fun t => (t.pc, t.sp)) =
    some (0x0203, 0) := by decide

/-! ### Stack, transfer, halt (2.7 to 2.9) -/

theorem test_phi : after (machine settled regs0 0x40 0x7e 0 0) (fun t => (t.top.lo, t.sp, t.draws, t.pc)) =
    some (0x7e, 1, 1, 0x0102) := by decide
theorem test_push : after (machine settled { regs0 with e := 0x21 } 0x41 0x04 0 0)
    (fun t => (t.top.lo, t.sp, t.regs.e, t.pc)) = some (0x21, 1, 0x21, 0x0102) := by decide
/-- `call 0x0200` at 0x0100, then `pull C`: bits 7:0 of the entry (2.7). -/
theorem test_pull : after ((machine settled regs0 0x42 0x02 0 0).push16 ⟨0x01, 0x03⟩)
    (fun t => (t.regs.c, t.sp, flags t, t.pc)) = some (0x03, 0, (false, false, false), 0x0102) := by decide
/-- A pull at SP = 0 wraps to 0xFF (10_state.md R31). -/
theorem test_pull_wraps : after (machine settled regs0 0x42 0x02 0 0) (fun t => t.sp) = some 0xff := by decide
theorem test_move : after (machine settled { regs0 with c := 0xf6 } 0x20 0x02 0x03 0)
    (fun t => (t.regs.c, t.regs.d, t.regs.a, t.regs.b)) = some (0xf6, 0xf6, 0x10, 0x03) := by decide
theorem test_move_dst_first : after (machine { settled with moveDir := .dstFirst } { regs0 with c := 0xf6 } 0x20 0x02 0x03 0)
    (fun t => (t.regs.c, t.regs.d)) = some (0x00, 0x00) := by decide
/-- `load 0x0100, C` at 0x0100 reads its own opcode byte (2.8). -/
theorem test_load : after (machine settled regs0 0x10 0x00 0x01 0x02) (fun t => (t.regs.c, t.mar, t.odr, t.pc)) =
    some (0x10, 0x0100, 0x10, 0x0104) := by decide
theorem test_store_last_byte : after (machine settled { regs0 with d := 0x0f } 0x11 0x03 0xff 0xff)
    (fun t => (t.memRead 0xffff, t.memRead 0xfffe, t.mar, t.idr, t.pc)) = some (0x0f, 0x00, 0xffff, 0x0f, 0x0104) := by
  decide
/-- ADDR_ORDER turns a fault into a write (section 5). -/
theorem test_store_high_first : after (machine { settled with addrOrder := .highFirst } { regs0 with d := 0x0f } 0x11 0x03 0xff 0x7f)
    (fun t => t.memRead 0xff7f) = some 0x0f := by decide
theorem test_hlt : after (machine settled regs0 0xff 0 0 0) (fun t => (t.halted, t.pc, t.regs)) =
    some (true, 0x0101, regs0) := by decide
theorem test_nop : after (machine settled regs0 0xfe 0 0 0) (fun t => (t.halted, t.pc, t.regs)) =
    some (false, 0x0101, regs0) := by decide

/-! ### Ports and devices (2.12, 2.14; section 5) -/

/-- Whatever the environment presents, only the register and the count of reads change. -/
theorem test_in : after (machine settled regs0 0xb0 0x01 0x02 0)
    (fun t => (t.regs.a, t.regs.b, t.regs.d, flags t, t.draws, t.pc)) =
      some (0x10, 0x03, 0x00, (false, false, false), 1, 0x0103) := rfl
theorem test_out_selector : after { machine settled { regs0 with c := 0xff } 0xb1 0x02 0x02 0 with outp1 := 0x11 }
    (fun t => (t.outp1, t.outp2, t.v1, t.v2, t.gl, t.ackLine)) = some (0x11, 0xff, 0x11, 0x00, 0x0000, false) := rfl
theorem test_out_port_1_only :
    after { machine { settled with ackScope := .port1Only } { regs0 with c := 0xff } 0xb1 0x02 0x02 0 with outp1 := 0x11 }
      (fun t => (t.outp2, t.v1)) = some (0xff, 0x00) := by decide
theorem test_sgr : after { machine settled regs0 0xb8 0 0 0 with v1 := 0xa5, v2 := 0x3c }
    (fun t => (t.gl, t.pc, t.sgrLine)) = some (0x3ca5, 0x0101, false) := by decide
/-- LEDs 0, 2, 5, 7, 10, 11, 12 and 13 are lit (2.14). -/
theorem test_leds : ((List.finRange 16).filter fun n => State.led { State.reset with gl := 0x3ca5 } n) =
    [0, 2, 5, 7, 10, 11, 12, 13] := by decide

/-! ### Faults (section 3) and reset -/

theorem test_fault_opcode : faultOf (machine settled regs0 0x00 0 0 0) = some (.invalidOpcode 0x00 0x0100) := by decide
theorem test_fault_first_register : faultOf (machine settled regs0 0x71 0x08 0x09 0) =
    some (.invalidRegister 0x08 1 0x0100) := by decide
theorem test_fault_load_register : faultOf (machine settled regs0 0x10 0x00 0x80 0x08) =
    some (.invalidRegister 0x08 3 0x0100) := by decide
theorem test_fault_in_port_first : faultOf (machine settled regs0 0xb0 0x00 0x09 0) =
    some (.invalidPort 0x00 0x0100) := by decide
theorem test_fault_out_register_first : faultOf (machine settled regs0 0xb1 0x08 0x00 0) =
    some (.invalidRegister 0x08 1 0x0100) := by decide
/-- `store` with a bad register and a ROM address: the register is reported first. -/
theorem test_fault_store_register_first : faultOf (machine settled regs0 0x11 0x09 0x00 0x10) =
    some (.invalidRegister 0x09 1 0x0100) := by decide
theorem test_fault_store_to_rom : faultOf (machine settled regs0 0x11 0x03 0xff 0x7f) =
    some (.storeToROM 0x7fff 0x0100) := by decide
theorem test_fault_codes : Fault.code (.invalidOpcode 0 0) = 1 ∧ Fault.code (.invalidRegister 0 1 0) = 2 ∧
    Fault.code (.invalidPort 0 0) = 3 ∧ Fault.code (.storeToROM 0 0) = 4 := by decide
theorem test_reset : State.reset.pc = 0x0000 ∧ State.reset.halted = false := by decide
/-- The word of an opcode-table row runs as the first instruction after reset. -/
theorem test_first_instruction : after (State.reset.withFetchWord 24 0x000fc3) (fun t => (t.regs.a, t.pc)) =
    some (0x0f, 0x0003) := by decide

/-! ### Witnesses: for each statement with hypotheses, states and operands that meet them, clause by clause -/

/-- A machine at 0x0100 with the model's standard parameters. -/
def at100 (b0 b1 b2 b3 : Byte) : State := machine Config.standard regs0 b0 b1 b2 b3

theorem witness_EncodeOfDecode : decode 0x71 0x06 0x03 0x00 = .ok (.add .g .d) := rfl
theorem witness_DecodeAcceptsWellFormedBytes :
    (∃ i, decode 0x20 0x07 0x07 0x00 = .ok i) ∧ wellFormedBytes [0x20, 0x07, 0x08, 0x00] = false := ⟨⟨_, rfl⟩, by decide⟩
theorem witness_UndefinedOpcodesAreTheListedOnes :
    (∀ b1 b2 b3, decode 0xfd b1 b2 b3 = .error (.invalidOpcode 0xfd)) ∧ ∃ i, decode 0xfe 0 0 0 = .ok i :=
  ⟨fun _ _ _ => rfl, _, rfl⟩
theorem witness_StepRunsTheDecodedInstruction :
    (at100 0x71 0x06 0x03 0).halted = false ∧ decode ((at100 0x71 0x06 0x03 0).memRead 0x0100)
      ((at100 0x71 0x06 0x03 0).memRead (0x0100 + 1)) ((at100 0x71 0x06 0x03 0).memRead (0x0100 + 2))
      ((at100 0x71 0x06 0x03 0).memRead (0x0100 + 3)) = .ok (.add .g .d) := ⟨rfl, rfl⟩
theorem witness_UndefinedOpcodeStops : (at100 0xfd 0 0 0).halted = false ∧
    formatOf ((at100 0xfd 0 0 0).memRead (at100 0xfd 0 0 0).pc) = none := by decide
/-- The four clauses: port 0x00; register 0x08 behind port 0x02; register 0x08; port 0x03 behind register 0x07. -/
theorem witness_PortInstructionsCheckInOrder :
    faultOf (at100 0xb0 0x00 0x02 0) = some (.invalidPort 0x00 0x0100) ∧
    faultOf (at100 0xb0 0x02 0x08 0) = some (.invalidRegister 0x08 2 0x0100) ∧
    faultOf (at100 0xb1 0x08 0x01 0) = some (.invalidRegister 0x08 1 0x0100) ∧
    faultOf (at100 0xb1 0x07 0x03 0) = some (.invalidPort 0x03 0x0100) := by decide
theorem witness_FaultsHaveTheirReasons :
    step (at100 0x00 0 0 0) = .fault (.invalidOpcode 0x00 0x0100) ∧
    step (at100 0xa1 0x08 0 0) = .fault (.invalidRegister 0x08 1 0x0100) ∧
    step (at100 0xb0 0x03 0x02 0) = .fault (.invalidPort 0x03 0x0100) ∧
    step (at100 0x11 0x03 0xff 0x7f) = .fault (.storeToROM 0x7fff 0x0100) := ⟨rfl, rfl, rfl, rfl⟩
/-- Both cases, at the boundary of ROM and RAM. -/
theorem witness_EveryInstructionRuns : State.reset.cfg.aluAlias = .sequence ∧
    (∃ t, exec (.store .a ⟨0x00, 0x80⟩) State.reset = .next t) ∧
    exec (.store .a ⟨0xff, 0x7f⟩) State.reset = .fault (.storeToROM 0x7fff 0x0000) := ⟨rfl, ⟨_, rfl⟩, rfl⟩
theorem witness_HaltedMachineStays : ({ State.reset with halted := true }).halted = true := rfl
theorem witness_OnlyHltStopsTheClock :
    (at100 0xff 0 0 0).halted = false ∧ (∃ t, step (at100 0xff 0 0 0) = .next t) ∧
    (at100 0xfe 0 0 0).halted = false ∧ ∃ t, step (at100 0xfe 0 0 0) = .next t := ⟨rfl, ⟨_, rfl⟩, rfl, ⟨_, rfl⟩⟩
/-- The three cases: `load`, `store` to 0x8000, another instruction. -/
theorem witness_BusRegistersAfterAStep :
    ((at100 0x10 0x00 0x80 0x02).fetchDecode = .ok (.load ⟨0x00, 0x80⟩ .c) ∧ ∃ t, step (at100 0x10 0x00 0x80 0x02) = .next t) ∧
    ((at100 0x11 0x03 0x00 0x80).fetchDecode = .ok (.store .d ⟨0x00, 0x80⟩) ∧
      ∃ t, step (at100 0x11 0x03 0x00 0x80) = .next t) ∧
    ((at100 0xfe 0 0 0).fetchDecode = .ok .nop ∧ ∃ t, step (at100 0xfe 0 0 0) = .next t) :=
  ⟨⟨rfl, _, rfl⟩, ⟨rfl, _, rfl⟩, rfl, _, rfl⟩
/-- ALU_ALIAS = Sequence with destination B, and Refuse with destination A. -/
theorem witness_AdiAndSbiCompute : ((at100 0 0 0 0).cfg.aluAlias = .sequence ∨ Reg.b ≠ .b) ∧
    ((machine { settled with aluAlias := .refuse } regs0 0 0 0 0).cfg.aluAlias = .sequence ∨ Reg.a ≠ .b) := by decide
theorem witness_AddAndSubCompute : ((at100 0 0 0 0).cfg.aluAlias = .sequence ∨ Reg.b ≠ .b ∨ Reg.a = .b) ∧
    ((machine { settled with aluAlias := .refuse } regs0 0 0 0 0).cfg.aluAlias = .sequence ∨ Reg.b ≠ .b ∨ Reg.b = .b) := by
  decide
theorem witness_XorAndNandCompute : (at100 0 0 0 0).cfg.aluAlias = .sequence ∧
    (at100 0 0 0 0).cfg.logicCarry = .any ∧ (machine settled regs0 0 0 0 0).cfg.logicCarry = .unchanged ∧
    (machine { settled with logicCarry := .cleared } regs0 0 0 0 0).cfg.logicCarry = .cleared := by decide
theorem witness_XriAndNandiCompute : (at100 0 0 0 0).cfg.aluAlias = .sequence ∨ Reg.b ≠ .b := by decide
theorem witness_IncAndDcrCompute : ((at100 0 0 0 0).cfg.aluAlias = .sequence ∨ Reg.b ≠ .b) ∧
    (at100 0 0 0 0).cfg.subCarry = .chip ∧ (machine settled regs0 0 0 0 0).cfg.subCarry = .borrow ∧
    (machine { settled with subCarry := .notBorrow } regs0 0 0 0 0).cfg.subCarry = .notBorrow := by decide
theorem witness_DestinationBIsRefusedOnlyUnderRefuse :
    exec (.adi 0x05 .b) { State.reset with cfg := { settled with aluAlias := .refuse } } = .refused .aluDestinationB ∧
    exec (.add .b .a) { State.reset with cfg := { settled with aluAlias := .refuse } } = .refused .aluDestinationB ∧
    ∃ t, exec (.add .b .b) { State.reset with cfg := { settled with aluAlias := .refuse } } = .next t :=
  ⟨rfl, rfl, _, rfl⟩
/-- SHIFT_CARRY's three settings. -/
theorem witness_RorAndRolRotate : (at100 0 0 0 0).cfg.shiftCarry = .bitOut ∧
    (machine { settled with shiftCarry := .unchanged } regs0 0 0 0 0).cfg.shiftCarry = .unchanged ∧
    (machine { settled with shiftCarry := .any } regs0 0 0 0 0).cfg.shiftCarry = .any := by decide
/-- The first register byte that is none, and the last that is one. -/
theorem witness_register_bytes : 7 < (0x08 : Byte).toNat ∧ (0x07 : Byte).toNat ≤ 7 := by decide
theorem witness_RtsReturnsFromCall : ∃ t, exec (.call ⟨0x00, 0x02⟩) (at100 0x50 0x00 0x02 0) = .next t ∧
    t.sp = 1 ∧ t.top = ⟨0x01, 0x03⟩ := ⟨_, rfl, rfl, by decide⟩
theorem witness_PullReturnsThePushedByte : (∃ t, exec (.phi 0x7e) (at100 0 0 0 0) = .next t ∧ t.sp = 1) ∧
    ∃ t, exec (.push .a) (at100 0 0 0 0) = .next t ∧ (at100 0 0 0 0).reg .a = 0x10 := ⟨⟨_, rfl, rfl⟩, _, rfl, rfl⟩
theorem witness_StackIsLastInFirstOut : (List.replicate 256 (Entry.mk 0 1)).length ≤ 256 :=
  List.length_replicate.le
theorem witness_StackWrapsAfter256Entries : (List.replicate 256 (Entry.mk 0 1)).length = 256 :=
  List.length_replicate
/-- Both MOVE_DIR clauses. -/
theorem witness_MoveCopies : (at100 0 0 0 0).cfg.moveDir = .srcFirst ∧
    (machine { settled with moveDir := .dstFirst } regs0 0 0 0 0).cfg.moveDir = .dstFirst := by decide
/-- The first address of RAM and the last of ROM. -/
theorem witness_StoreWritesOneByteOfRam : 0x8000 ≤ ((at100 0 0 0 0).address ⟨0x00, 0x80⟩).toNat ∧
    ((at100 0 0 0 0).address ⟨0xff, 0x7f⟩).toNat < 0x8000 := by decide
/-- Self-modifying code (2.8): the `store` at 0x8000 writes the byte after it, which the next fetch reads. -/
theorem witness_StoredByteIsSeenAtOnce :
    ∃ t, exec (.store .c ⟨0x04, 0x80⟩) { State.reset with pc := 0x8000 } = .next t ∧
      t.pc + BitVec.ofNat 16 0 = State.reset.address ⟨0x04, 0x80⟩ := ⟨_, rfl, by decide⟩
/-- The two ACK_SCOPE clauses. -/
theorem witness_OutWritesThePortAndPulses : (at100 0 0 0 0).cfg.ackScope = .anyOut ∧
    (machine { settled with ackScope := .port1Only } regs0 0 0 0 0).cfg.ackScope = .port1Only := by decide
theorem witness_NopDoesNothing : (at100 0xfe 0 0 0).halted = false ∧
    (at100 0xfe 0 0 0).memRead (at100 0xfe 0 0 0).pc = 0xfe := by decide
/-- The three selectors: 0xFF, 0xFE, and neither. -/
theorem witness_SelectorThenByteFillsTheVram :
    ∃ t u, exec (.out .c .p2) (machine settled { regs0 with c := 0xff, d := 0xfe, e := 0xfd } 0 0 0 0) = .next t ∧
      exec (.out .a .p1) t = .next u ∧ (machine settled { regs0 with c := 0xff, d := 0xfe, e := 0xfd } 0 0 0 0).reg .c = 0xff ∧
      (machine settled { regs0 with c := 0xff, d := 0xfe, e := 0xfd } 0 0 0 0).reg .d = 0xfe ∧
      (machine settled { regs0 with c := 0xff, d := 0xfe, e := 0xfd } 0 0 0 0).reg .e ≠ 0xff ∧
      (machine settled { regs0 with c := 0xff, d := 0xfe, e := 0xfd } 0 0 0 0).reg .e ≠ 0xfe :=
  ⟨_, _, rfl, rfl, rfl, rfl, by decide, by decide⟩
theorem witness_LedsShowTheLatch : State.reset.cfg.wf = true ∧ State.reset.cfg.glPinMap = Config.straightPins := by decide
theorem witness_StepKeepsTheInvariant : (at100 0xb8 0 0 0).Inv ∧ ∃ t, step (at100 0xb8 0 0 0) = .next t :=
  ⟨⟨by decide, rfl, rfl⟩, _, rfl⟩
theorem witness_PowerUpHasTheInvariant : (at100 0xb8 0 0 0).mem.wf := by decide
theorem witness_RomAndParametersNeverChange : ∃ t, step (at100 0x11 0x03 0x00 0x80) = .next t ∧ (0x7fff : Addr).toNat < 0x8000 :=
  ⟨_, rfl, by decide⟩
theorem witness_EachPartHasItsOwnInstructions : ∃ t, exec (.store .a ⟨0x00, 0x80⟩) State.reset = .next t := ⟨_, rfl⟩
theorem witness_FourteenInstructionsSetTheFlags :
    (∃ t, exec (.add .c .d) State.reset = .next t) ∧ (Instr.add .c .d).setsFlags = true ∧
    (∃ t, exec (.rri 0x01 .d) State.reset = .next t) ∧ (Instr.rri 0x01 .d).setsFlags = false := ⟨⟨_, rfl⟩, rfl, ⟨_, rfl⟩, rfl⟩
theorem witness_AluInstructionsOverwriteAAndB :
    (∃ t, exec (.add .c .d) State.reset = .next t) ∧ Reg.c ≠ .b ∧ (∃ t, exec (.adi 0x05 .b) State.reset = .next t) ∧
    ∃ t, exec (.move .a .b) State.reset = .next t ∧ Reg.a ∉ [(moveOperands State.reset.cfg.moveDir .a .b).2] :=
  ⟨⟨_, rfl⟩, by decide, ⟨_, rfl⟩, _, rfl, by decide⟩
/-- At the top of the address space too. -/
theorem witness_PcAdvancesByTheLength : ∃ t, exec (.load ⟨0x00, 0x80⟩ .c) { State.reset with pc := 0xffff } = .next t ∧
    (Instr.load ⟨0x00, 0x80⟩ .c).format ≠ .a ∧ Instr.load ⟨0x00, 0x80⟩ .c ≠ .rts := ⟨_, rfl, by decide, by decide⟩
theorem witness_BusRegistersAreUnobservable : SameButBusRegs (at100 0xfe 0 0 0) { at100 0xfe 0 0 0 with mar := 0x1234, ir := 0x56 } :=
  rfl
/-- SP = 0 and SP = 255 over a ring of equal entries. -/
theorem witness_StackPointerIsUnobservable : StackTurned 0xff (at100 0x51 0 0 0) { at100 0x51 0 0 0 with sp := 0xff } := by
  refine ⟨rfl, fun i => ?_, rfl⟩
  show (Vector.replicate 256 (Entry.mk 0 0))[(i + 0xff).toNat]'(i + 0xff).isLt = (Vector.replicate 256 (Entry.mk 0 0))[i.toNat]'i.isLt
  simp
theorem witness_PowerCycleKeepsTheRom : (at100 0xfe 0 0 0).mem.wf ∧ State.reset.mem.wf ∧ (0x7fff : Addr).toNat < 0x8000 ∧
    0x8000 ≤ (0x8000 : Addr).toNat := by decide

end Sys2Proof.Tests
end

section
/-! PROOFS. The encoding shapes VR and RR, each once for every instruction of that format (30_encoding.md R82, R91). -/

namespace Sys2Proof.Machine

/-! ### Register bytes -/

/-- The check passes on a selector code. -/
@[simp] theorem withReg_code (pos : Nat) (r : Reg) (k : Reg → Except DecodeError Instr) :
    withReg pos r.code k = k r := by
  simp [withReg]

/-- The check fails above 0x07, whatever would come after it. -/
theorem withReg_of_seven_lt (pos : Nat) {b : Byte} (k : Reg → Except DecodeError Instr) (hb : 7 < b.toNat) :
    withReg pos b k = .error (.invalidRegister b pos) := by
  simp [withReg, (Reg.ofByte_eq_none b).2 hb]

/-- A byte up to 0x07 is some register's selector code. -/
theorem exists_eq_code_of_le_seven {b : Byte} (hb : b.toNat ≤ 7) : ∃ r : Reg, b = r.code := by
  cases h : Reg.ofByte b with
  | none => exact absurd ((Reg.ofByte_eq_none b).1 h) (by omega)
  | some r => exact ⟨r, (Reg.ofByte_eq_some b r).1 h⟩

/-! ### Formats -/

/-- Format VR from an instruction's encoding and its row of the opcode map. -/
theorem shapeVR_of_row {op : Byte} {mk : Byte → Reg → Instr}
    (encodes : ∀ v r, encode (mk v r) = [op, v, r.code])
    (row : ∀ b1 b2 b3, decode op b1 b2 b3 = decodeVR mk b1 b2) : ShapeVR op mk := by
  have bytes (v b : Byte) (rest : List Byte) : decodeList (op :: v :: b :: rest) = decodeVR mk v b := row _ _ _
  refine ⟨fun v r => ⟨encodes v r, fun rest => ?_⟩, fun v b rest hb => ?_⟩
  · exact (bytes v r.code rest).trans (withReg_code 2 r _)
  · exact (bytes v b rest).trans (withReg_of_seven_lt 2 _ hb)

/-- Format RR from an instruction's encoding and its row of the opcode map. -/
theorem shapeRR_of_row {op : Byte} {mk : Reg → Reg → Instr}
    (encodes : ∀ r1 r2, encode (mk r1 r2) = [op, r1.code, r2.code])
    (row : ∀ b1 b2 b3, decode op b1 b2 b3 = decodeRR mk b1 b2) : ShapeRR op mk := by
  have bytes (b1 b2 : Byte) (rest : List Byte) : decodeList (op :: b1 :: b2 :: rest) = decodeRR mk b1 b2 := row _ _ _
  refine ⟨fun r1 r2 => ⟨encodes r1 r2, fun rest => ?_⟩, fun b b2 rest hb => ?_, fun b1 b rest hb1 hb => ?_⟩
  · exact (bytes r1.code r2.code rest).trans (by simp [decodeRR])
  · exact (bytes b b2 rest).trans (withReg_of_seven_lt 1 _ hb)
  · obtain ⟨r1, rfl⟩ := exists_eq_code_of_le_seven hb1
    calc decodeList (op :: r1.code :: b :: rest) = decodeRR mk r1.code b := bytes _ _ _
      _ = withReg 2 b (fun r2 => .ok (mk r1 r2)) := withReg_code 1 r1 _
      _ = .error (.invalidRegister b 2) := withReg_of_seven_lt 2 _ hb

end Sys2Proof.Machine
end

section
/-! PROOFS. The frame of each state operation as a `KeptBut`, and how frames compose. -/

namespace Sys2Proof.Machine

theorem Part.kept_trans {p : Part} {s t u : State} (hst : p.kept s t) (htu : p.kept t u) : p.kept s u := by
  cases p <;> simp_all [Part.kept]

/-- One operation after the other changes at most what either of them changes. -/
theorem KeptBut.trans {ps qs : List Part} {s t u : State} (hst : KeptBut ps s t) (htu : KeptBut qs t u) :
    KeptBut (ps ++ qs) s u := by
  intro p hp
  obtain ⟨hps, hqs⟩ : p ∉ ps ∧ p ∉ qs := by simpa using hp
  exact Part.kept_trans (hst p hps) (htu p hqs)

theorem State.setReg_keptBut (s : State) (r : Reg) (v : Byte) : KeptBut [.regs] s (s.setReg r v) := by
  intro p hp
  cases p <;> simp_all [Part.kept]

theorem State.countDraws_keptBut (s : State) (n : Nat) : KeptBut [.draws] s (s.countDraws n) := by
  intro p hp
  cases p <;> simp_all [Part.kept]

/-- The `pc` is no `Part`, so advancing it keeps every part. -/
theorem State.advance_keptBut (s : State) (n : Nat) : KeptBut [] s (s.advance n) := by
  intro p _
  cases p <;> simp [Part.kept]

theorem State.alu2_keptBut (s : State) (op : Byte → Byte → Byte × Bool) (rd : Reg) (v : Byte) :
    KeptBut [.regs, .flags] s (s.alu2 op rd v) := by
  intro p hp
  cases p <;> simp_all [Part.kept]

end Sys2Proof.Machine
end

section
/-! PROOFS. What the two-operand ALU instructions do (40_ldi_and_alu_two_operand.md R111 to R114): the routing once for
every operation, then its three kinds of operation with their carries. -/

namespace Sys2Proof.Machine

/-! ### The routing -/

/-- Registers, ZF and SF after the routing, in the terms of the statements: with the left operand as R114 reads it, and
whatever free values have been counted. -/
theorem State.alu2_did (s : State) (op : Byte → Byte → Byte × Bool) (n : Nat) (rd : Reg) (v : Byte) (len : Nat) :
    Alu2Did rd v (op (leftOperand s rd v) v).1 (BitVec.ofNat 16 len) s
      (((s.alu2 op rd v).countDraws n).advance len) := by
  have frame := ((s.alu2_keptBut op rd v).trans (State.countDraws_keptBut _ n)).trans (State.advance_keptBut _ len)
  refine ⟨?dest, ?accumulator, fun hb => ?right, fun r hr => ?others, ⟨?zero, ?sign⟩, rfl, frame⟩
  case dest | accumulator => simp [State.reg_alu2, leftOperand]
  case right => simp [State.reg_alu2, hb.symm]
  case others =>
    obtain ⟨ha, hb, hd⟩ : r ≠ .a ∧ r ≠ .b ∧ r ≠ rd := by simpa using hr
    simp [State.reg_alu2, ha, hb, hd]
  case zero => exact s.zf_alu2 op rd v
  case sign => exact (s.sf_alu2 op rd v).trans (BitVec.msb_eq_getLsbD_last _)

/-- A two-operand ALU instruction that ALU_ALIAS does not refuse goes on to the routed state. -/
theorem alu2Instr_eq_next (op : Byte → Byte → Byte × Bool) (n : Nat) (rd : Reg) (v : Byte) (rightIsB : Bool) (len : Nat)
    (s : State) (runs : s.cfg.aluAlias = .sequence ∨ rd ≠ .b ∨ rightIsB = true) :
    alu2Instr op n rd v rightIsB len s = .next (((s.alu2 op rd v).countDraws n).advance len) := by
  simp [alu2Instr, aliasRefused_eq_false runs]

/-- What that state holds: the result and the carry are the operation's on the
left operand and `v`, and `n` free values are counted. -/
theorem alu2Instr_did (op : Byte → Byte → Byte × Bool) (n : Nat) (rd : Reg) (v : Byte) (rightIsB : Bool) (len : Nat)
    (s : State) (runs : s.cfg.aluAlias = .sequence ∨ rd ≠ .b ∨ rightIsB = true) :
    ∃ t, alu2Instr op n rd v rightIsB len s = .next t ∧
      Alu2Did rd v (op (leftOperand s rd v) v).1 (BitVec.ofNat 16 len) s t ∧
      t.cf = (op (leftOperand s rd v) v).2 ∧ t.draws = s.draws + n :=
  ⟨_, alu2Instr_eq_next op n rd v rightIsB len s runs, s.alu2_did op n rd v len, s.cf_alu2 op rd v, rfl⟩

/-! ### The carries -/

theorem subtractCarry_of_cf {s t : State} {left v : Byte} (hcf : t.cf = subCarry s.cfg.subCarry left v) :
    SubtractCarry s t left v := by
  refine ⟨fun h => ?_, fun h => ?_, fun h => ?_⟩ <;> simp [hcf, h, subCarry]

/-- The value drawn does not matter: it is used under Any only, where nothing is said of CF. -/
theorem logicCarryDid_of_cf {s t : State} {drawn : Bool} (hcf : t.cf = logicCarry s.cfg.logicCarry s.cf drawn)
    (hdraws : t.draws = s.draws + logicDraws s.cfg.logicCarry) : LogicCarryDid s t := by
  refine ⟨fun h => ?_, fun h => ?_, fun h => ?_⟩ <;> simp [hcf, hdraws, h, logicCarry, logicDraws]

/-! ### The four operations -/

section
variable {rd : Reg} (v : Byte) {rightIsB : Bool} (len : Nat) {s : State}

theorem alu2Instr_add8_did (runs : s.cfg.aluAlias = .sequence ∨ rd ≠ .b ∨ rightIsB = true) :
    ∃ t, alu2Instr add8 0 rd v rightIsB len s = .next t ∧
      Alu2Did rd v (leftOperand s rd v + v) (BitVec.ofNat 16 len) s t ∧
      t.cf = decide (256 ≤ (leftOperand s rd v).toNat + v.toNat) ∧ t.draws = s.draws :=
  alu2Instr_did add8 0 rd v rightIsB len s runs

theorem alu2Instr_sub8_did (runs : s.cfg.aluAlias = .sequence ∨ rd ≠ .b ∨ rightIsB = true) :
    ∃ t, alu2Instr (sub8 s.cfg.subCarry) 0 rd v rightIsB len s = .next t ∧
      Alu2Did rd v (leftOperand s rd v - v) (BitVec.ofNat 16 len) s t ∧
      SubtractCarry s t (leftOperand s rd v) v ∧ t.draws = s.draws := by
  obtain ⟨t, next, did, hcf, hdraws⟩ := alu2Instr_did (sub8 s.cfg.subCarry) 0 rd v rightIsB len s runs
  exact ⟨t, next, did, subtractCarry_of_cf hcf, hdraws⟩

theorem alu2Instr_xorOp_did (runs : s.cfg.aluAlias = .sequence ∨ rd ≠ .b ∨ rightIsB = true) :
    ∃ t, alu2Instr s.xorOp (logicDraws s.cfg.logicCarry) rd v rightIsB len s = .next t ∧
      Alu2Did rd v (leftOperand s rd v ^^^ v) (BitVec.ofNat 16 len) s t ∧ LogicCarryDid s t := by
  obtain ⟨t, next, did, hcf, hdraws⟩ :=
    alu2Instr_did s.xorOp (logicDraws s.cfg.logicCarry) rd v rightIsB len s runs
  exact ⟨t, next, did, logicCarryDid_of_cf hcf hdraws⟩

/-- NAND's complement, written as the statements write it. -/
theorem nandOp_fst (s : State) (a b : Byte) : (s.nandOp a b).1 = (a &&& b) ^^^ 0xff :=
  (BitVec.xor_allOnes (x := a &&& b)).symm

theorem alu2Instr_nandOp_did (runs : s.cfg.aluAlias = .sequence ∨ rd ≠ .b ∨ rightIsB = true) :
    ∃ t, alu2Instr s.nandOp (logicDraws s.cfg.logicCarry) rd v rightIsB len s = .next t ∧
      Alu2Did rd v ((leftOperand s rd v &&& v) ^^^ 0xff) (BitVec.ofNat 16 len) s t ∧ LogicCarryDid s t := by
  obtain ⟨t, next, did, hcf, hdraws⟩ :=
    alu2Instr_did s.nandOp (logicDraws s.cfg.logicCarry) rd v rightIsB len s runs
  rw [nandOp_fst] at did
  exact ⟨t, next, did, logicCarryDid_of_cf hcf hdraws⟩

end

/-! ### When they run -/

/-- With a constant as right operand. -/
theorem runs_of_immediate {s : State} {rd : Reg} (h : s.cfg.aluAlias = .sequence ∨ rd ≠ .b) :
    s.cfg.aluAlias = .sequence ∨ rd ≠ .b ∨ false = true :=
  h.imp_right .inl

/-- With register `rs` as right operand: `rs = .b` is the form that R114 leaves under either setting. -/
theorem runs_of_register {s : State} {rd rs : Reg} (h : s.cfg.aluAlias = .sequence ∨ rd ≠ .b ∨ rs = .b) :
    s.cfg.aluAlias = .sequence ∨ rd ≠ .b ∨ decide (rs = .b) = true :=
  h.imp_right (.imp_right decide_eq_true)

end Sys2Proof.Machine
end

section
/-! PROOFS. The obligations on LDI and the two-operand ALU instructions (40_ldi_and_alu_two_operand.md). By definition
`exec` answers `alu2Instr` of the operation for each of them but `ldi`. -/

namespace Sys2Proof.Machine

/-- Settles O15: one register write, then the `pc`. -/
theorem ldiLoadsItsConstant : Obligations.LdiLoadsItsConstant := by
  refine ⟨shapeVR_of_row (fun _ _ => rfl) decode_0xc3, fun v r s => ⟨(s.setReg r v).advance 3, rfl, ?_, ?_, rfl, ?_⟩⟩
  · exact s.reg_setReg_self r v
  · exact fun r' hr' => s.reg_setReg_ne v (List.ne_of_not_mem_cons hr')
  · exact (s.setReg_keptBut r v).trans (State.advance_keptBut _ 3)

/-- Settles O16: the routing with the constant as right operand. -/
theorem adiAndSbiCompute : Obligations.AdiAndSbiCompute :=
  ⟨shapeVR_of_row (fun _ _ => rfl) decode_0x89, shapeVR_of_row (fun _ _ => rfl) decode_0x8a,
    fun v _ _ h => ⟨alu2Instr_add8_did v 3 (runs_of_immediate h), alu2Instr_sub8_did v 3 (runs_of_immediate h)⟩⟩

/-- Settles O17: the routing with the second register's old value as right operand. -/
theorem addAndSubCompute : Obligations.AddAndSubCompute :=
  ⟨shapeRR_of_row (fun _ _ => rfl) decode_0x71, shapeRR_of_row (fun _ _ => rfl) decode_0x70,
    fun _ rs s h => ⟨alu2Instr_add8_did (s.reg rs) 3 (runs_of_register h),
      alu2Instr_sub8_did (s.reg rs) 3 (runs_of_register h)⟩⟩

/-- Settles O18: the routing with the second register's old value as right operand, and LOGIC_CARRY for CF. -/
theorem xorAndNandCompute : Obligations.XorAndNandCompute :=
  ⟨shapeRR_of_row (fun _ _ => rfl) decode_0x88, shapeRR_of_row (fun _ _ => rfl) decode_0x85,
    fun _ rs s h => ⟨alu2Instr_xorOp_did (s.reg rs) 3 (runs_of_register h),
      alu2Instr_nandOp_did (s.reg rs) 3 (runs_of_register h)⟩⟩

end Sys2Proof.Machine
end

section
/-! PROOFS. The encoding shapes A and N, each once for every instruction of that format (30_encoding.md R82, R87). -/

namespace Sys2Proof.Machine

/-- Format A from an instruction's encoding and its row of the opcode map. No operand byte is checked. -/
theorem shapeA_of_row {op : Byte} {mk : AddrOperand → Instr}
    (encodes : ∀ x, encode (mk x) = [op, x.a1, x.a2])
    (row : ∀ b1 b2 b3, decode op b1 b2 b3 = decodeA mk b1 b2) : ShapeA op mk :=
  fun a1 a2 => ⟨encodes ⟨a1, a2⟩, fun _ => row a1 a2 _⟩

/-- Format N from an instruction's encoding and its row of the opcode map. No byte after the opcode matters. -/
theorem shapeN_of_row {op : Byte} {i : Instr} (encodes : encode i = [op])
    (row : ∀ b1 b2 b3, decode op b1 b2 b3 = .ok i) : ShapeN op i :=
  ⟨encodes, fun _ => row _ _ _⟩

end Sys2Proof.Machine
end

section
/-! PROOFS. The frames of the operations on the `pc` and the stack (10_state.md R26, R31), and what the stack's top is
after them. -/

namespace Sys2Proof.Machine

/-! ### The program counter -/

/-- The `pc` is no `Part`, so setting it keeps every part. -/
theorem State.setPc_keptBut (s : State) (a : Addr) : KeptBut [] s (s.setPc a) := by
  intro p _
  cases p <;> simp [Part.kept]

@[simp] theorem State.top_setPc (s : State) (a : Addr) : (s.setPc a).top = s.top := rfl

/-- A conditional jump ends at its target or three bytes on (41_jumps_call_rts.md R149). -/
theorem State.jumpIf_pc (s : State) (cond : Bool) (x : AddrOperand) :
    (s.jumpIf cond x).pc = if cond = true then s.address x else s.pc + 3 := by
  cases cond <;> rfl

/-- Taken or not, a conditional jump changes the `pc` only (41_jumps_call_rts.md R149). -/
theorem State.jumpIf_keptBut (s : State) (cond : Bool) (x : AddrOperand) : KeptBut [] s (s.jumpIf cond x) :=
  match cond with
  | true => s.setPc_keptBut (s.address x)
  | false => s.advance_keptBut 3

/-! ### The stack -/

theorem State.push16_keptBut (s : State) (e : Entry) : KeptBut [.stack] s (s.push16 e) := by
  intro p hp
  cases p <;> simp_all [Part.kept]

theorem State.pop16_keptBut (s : State) : KeptBut [.stack] s s.pop16 := by
  intro p hp
  cases p <;> simp_all [Part.kept]

/-- An entry other than the one a push makes the top is as it was. -/
theorem State.entry_push16_ne (s : State) (e : Entry) {i : Byte} (h : i ≠ s.sp + 1) :
    (s.push16 e).entry i = s.entry i :=
  (s.entry_push16 e i).trans (if_neg h)

end Sys2Proof.Machine
end

section
/-! PROOFS. The obligations on the jumps, CALL and RTS (41_jumps_call_rts.md). By definition `exec` answers
`State.jumpIf` on a flag or its negation for each conditional jump. -/

namespace Sys2Proof.Machine

/-- The two conditional jumps on one flag: `onSet` jumps when it is set, `onClear` when it is not. -/
theorem flagJumps_did {onSet onClear : Instr} {s : State} {flag : Bool} {x : AddrOperand}
    (execSet : exec onSet s = .next (s.jumpIf flag x)) (execClear : exec onClear s = .next (s.jumpIf (!flag) x)) :
    (∃ t, exec onSet s = .next t ∧ t.pc = (if flag = true then s.address x else s.pc + 3) ∧ KeptBut [] s t) ∧
    (∃ t, exec onClear s = .next t ∧ t.pc = (if flag = false then s.address x else s.pc + 3) ∧ KeptBut [] s t) := by
  refine ⟨⟨_, execSet, s.jumpIf_pc flag x, s.jumpIf_keptBut flag x⟩,
    ⟨_, execClear, ?_, s.jumpIf_keptBut (!flag) x⟩⟩
  simpa using s.jumpIf_pc (!flag) x

/-- Settles O26: the `pc` is set, and is no part of the frame. -/
theorem jmpJumps : Obligations.JmpJumps :=
  ⟨shapeA_of_row (fun _ => rfl) decode_0x01, fun x s => ⟨s.setPc (s.address x), rfl, rfl, s.setPc_keptBut _⟩⟩

/-- Settles O27: the two jumps on CF. -/
theorem carryJumps : Obligations.CarryJumps :=
  ⟨shapeA_of_row (fun _ => rfl) decode_0x02, shapeA_of_row (fun _ => rfl) decode_0x03,
    fun _ _ => flagJumps_did rfl rfl⟩

/-- Settles O28: the two jumps on ZF. -/
theorem zeroJumps : Obligations.ZeroJumps :=
  ⟨shapeA_of_row (fun _ => rfl) decode_0x04, shapeA_of_row (fun _ => rfl) decode_0x05,
    fun _ _ => flagJumps_did rfl rfl⟩

/-- Settles O29: the two jumps on SF. -/
theorem signJumps : Obligations.SignJumps :=
  ⟨shapeA_of_row (fun _ => rfl) decode_0x06, shapeA_of_row (fun _ => rfl) decode_0x07,
    fun _ _ => flagJumps_did rfl rfl⟩

/-- Settles O30: the pushed entry, read as an address, is the return address it was made from. -/
theorem callPushesTheReturnAddress : Obligations.CallPushesTheReturnAddress := by
  refine ⟨shapeA_of_row (fun _ => rfl) decode_0x50, fun x s => ?_⟩
  refine ⟨(s.push16 (addrEntry (s.pc + 3))).setPc (s.address x), rfl, rfl, rfl, ?top, fun i hi => ?others, ?frame⟩
  case top =>
    calc entryAddr ((s.push16 (addrEntry (s.pc + 3))).setPc (s.address x)).top
      _ = entryAddr (addrEntry (s.pc + 3)) := by rw [State.top_setPc, State.top_push16]
      _ = s.pc + 3 := entryAddr_addrEntry _
  case others => exact s.entry_push16_ne _ hi
  case frame => exact (s.push16_keptBut _).trans (State.setPc_keptBut _ _)

/-- Settles O31: a pop moves SP and keeps the entries, and the old top becomes the `pc`. -/
theorem rtsPopsThePc : Obligations.RtsPopsThePc :=
  ⟨shapeN_of_row rfl decode_0x51, fun s => ⟨s.pop16.setPc (entryAddr s.top), rfl, rfl, rfl, s.pop16_entry,
    s.pop16_keptBut.trans (State.setPc_keptBut _ _)⟩⟩

end Sys2Proof.Machine
end

section
/-! PROOFS. The encoding shapes V and R, each once for every instruction of that format (30_encoding.md R82, R91). -/

namespace Sys2Proof.Machine

/-- Format V from an instruction's encoding and its row of the opcode map. No operand byte is checked. -/
theorem shapeV_of_row {op : Byte} {mk : Byte → Instr} (encodes : ∀ v, encode (mk v) = [op, v])
    (row : ∀ b1 b2 b3, decode op b1 b2 b3 = .ok (mk b1)) : ShapeV op mk :=
  fun v => ⟨encodes v, fun _ => row v _ _⟩

/-- Format R from an instruction's encoding and its row of the opcode map. -/
theorem shapeR_of_row {op : Byte} {mk : Reg → Instr} (encodes : ∀ r, encode (mk r) = [op, r.code])
    (row : ∀ b1 b2 b3, decode op b1 b2 b3 = decodeR mk b1) : ShapeR op mk := by
  have bytes (b : Byte) (rest : List Byte) : decodeList (op :: b :: rest) = decodeR mk b := row _ _ _
  refine ⟨fun r => ⟨encodes r, fun rest => ?_⟩, fun b rest hb => ?_⟩
  · exact (bytes r.code rest).trans (withReg_code 1 r _)
  · exact (bytes b rest).trans (withReg_of_seven_lt 1 _ hb)

end Sys2Proof.Machine
end

section
/-! PROOFS. Weaker frames, what the top of a stack rests on, and pushing a byte (42_stack_phi_push_pull.md R160): what
it writes and what it keeps. -/

namespace Sys2Proof.Machine

/-- A frame may name more parts, and in any order. -/
theorem KeptBut.mono {ps qs : List Part} {s t : State} (kept : KeptBut ps s t) (sub : ps ⊆ qs) : KeptBut qs s t :=
  fun p hp => kept p (mt (@sub p) hp)

/-- The top is read from SP and SK only (10_state.md R31). -/
theorem State.top_congr {s t : State} (hsp : t.sp = s.sp) (hsk : t.sk = s.sk) : t.top = s.top := by
  simp [State.top, State.entry, hsp, hsk]

@[simp] theorem State.top_advance (s : State) (n : Nat) : (s.advance n).top = s.top := rfl

@[simp] theorem State.sp_pushByte (s : State) (v : Byte) : (s.pushByte v).sp = s.sp + 1 := rfl

/-- The byte is in the lower half of the new top, whatever value was drawn for the upper half. -/
@[simp] theorem State.lo_top_pushByte (s : State) (v : Byte) : (s.pushByte v).top.lo = v :=
  congrArg Entry.lo (s.top_push16 (s.dataEntry v))

/-- An entry other than the one the byte goes to is as it was. -/
theorem State.entry_pushByte_ne (s : State) (v : Byte) {i : Byte} (h : i ≠ s.sp + 1) :
    (s.pushByte v).entry i = s.entry i :=
  s.entry_push16_ne (s.dataEntry v) h

theorem State.pushByte_keptBut (s : State) (v : Byte) : KeptBut [.stack, .draws] s (s.pushByte v) :=
  (s.push16_keptBut _).trans (State.countDraws_keptBut _ 1)

end Sys2Proof.Machine
end

section
/-! PROOFS. The obligations on PHI, PUSH and PULL (42_stack_phi_push_pull.md). By definition `exec` answers
`State.pushByte` of the byte, then the `pc`, for `phi` and `push`. -/

namespace Sys2Proof.Machine

/-- What an instruction does that pushes the byte `v`, in the terms of the statement. -/
theorem pushByte_did {i : Instr} {s : State} {v : Byte} (pushes : exec i s = .next ((s.pushByte v).advance 2)) :
    ∃ t, exec i s = .next t ∧ t.top.lo = v ∧ t.sp = s.sp + 1 ∧ (∀ j, j ≠ t.sp → t.entry j = s.entry j) ∧
      t.pc = s.pc + 2 ∧ t.draws = s.draws + 1 ∧ KeptBut [.stack, .draws] s t :=
  ⟨_, pushes, s.lo_top_pushByte v, rfl, fun _ => s.entry_pushByte_ne v, rfl, rfl,
    (s.pushByte_keptBut v).trans (State.advance_keptBut _ 2)⟩

/-- Settles O33: `phi` pushes its constant, `push` the byte its register held. -/
theorem phiAndPushPushAByte : Obligations.PhiAndPushPushAByte :=
  ⟨shapeV_of_row (fun _ => rfl) decode_0x40, shapeR_of_row (fun _ => rfl) decode_0x41,
    fun _ _ _ => ⟨pushByte_did rfl, pushByte_did rfl⟩⟩

/-- Settles O34: a pop moves SP and keeps the entries, and the low byte of the old top goes to the register. -/
theorem pullPopsAByte : Obligations.PullPopsAByte := by
  refine ⟨shapeR_of_row (fun _ => rfl) decode_0x42, fun r s => ?_⟩
  refine ⟨(s.pop16.setReg r s.top.lo).advance 2, rfl, ?written, fun r' hr' => ?others, rfl, s.pop16_entry, rfl, ?frame⟩
  case written => exact s.pop16.reg_setReg_self r _
  case others => exact s.pop16.reg_setReg_ne _ (List.ne_of_not_mem_cons hr')
  case frame =>
    exact ((s.pop16_keptBut.trans (State.setReg_keptBut _ r _)).trans (State.advance_keptBut _ 2)).mono (by simp)

/-- Settles O35: the pulled byte is the low byte of the top the push left, and SP goes up by one and down again. -/
theorem pullReturnsThePushedByte : Obligations.PullReturnsThePushedByte := by
  intro i v s t t' r' form pushed hsp hsk
  have pushes : exec i s = .next ((s.pushByte v).advance 2) := by
    obtain rfl | ⟨r, rfl, rfl⟩ := form <;> rfl
  obtain rfl : (s.pushByte v).advance 2 = t := Host.Outcome.next.inj (pushes.symm.trans pushed)
  obtain ⟨u, pulled, hreg, -, husp, -⟩ := pullPopsAByte.2 r' t'
  refine ⟨u, pulled, ?byte, ?pointer⟩
  case byte =>
    calc u.reg r' = t'.top.lo := hreg
      _ = ((s.pushByte v).advance 2).top.lo := by rw [State.top_congr hsp hsk]
      _ = v := by simp
  case pointer =>
    calc u.sp = t'.sp - 1 := husp
      _ = s.sp + 1 - 1 := by rw [hsp, State.advance_sp, State.sp_pushByte]
      _ = s.sp := BitVec.add_sub_cancel _ _

end Sys2Proof.Machine
end

section
/-! PROOFS. The encodings of `load` and `store`, the only instructions of formats AR and RA (30_encoding.md R82, R91). -/

namespace Sys2Proof.Machine

/-- The address bytes are not checked, the register byte in position 3 is. -/
theorem decodeList_load (a1 a2 b : Byte) (rest : List Byte) :
    decodeList (0x10 :: a1 :: a2 :: b :: rest) = withReg 3 b fun r => .ok (.load ⟨a1, a2⟩ r) :=
  decode_0x10 a1 a2 b

/-- The register byte in position 1 is checked, the address bytes after it are not. -/
theorem decodeList_store (b a1 a2 : Byte) (rest : List Byte) :
    decodeList (0x11 :: b :: a1 :: a2 :: rest) = withReg 1 b fun r => .ok (.store r ⟨a1, a2⟩) :=
  decode_0x11 b a1 a2

theorem load_encodedAs (a1 a2 : Byte) (r : Reg) : EncodedAs (.load ⟨a1, a2⟩ r) [0x10, a1, a2, r.code] :=
  ⟨rfl, fun rest => (decodeList_load a1 a2 r.code rest).trans (withReg_code 3 r _)⟩

theorem store_encodedAs (r : Reg) (a1 a2 : Byte) : EncodedAs (.store r ⟨a1, a2⟩) [0x11, r.code, a1, a2] :=
  ⟨rfl, fun rest => (decodeList_store r.code a1 a2 rest).trans (withReg_code 1 r _)⟩

end Sys2Proof.Machine
end

section
/-! PROOFS. The frames of the memory accesses (20_memory.md R55, 10_state.md R36) and of one register write. -/

namespace Sys2Proof.Machine

theorem State.poke_keptBut (s : State) (a : Addr) (v : Byte) : KeptBut [.memory] s (s.poke a v) := by
  intro p hp
  cases p <;> simp_all [Part.kept]

theorem State.latchRead_keptBut (s : State) (a : Addr) (v : Byte) : KeptBut [.busRegs] s (s.latchRead a v) := by
  intro p hp
  cases p <;> simp_all [Part.kept]

theorem State.latchWrite_keptBut (s : State) (a : Addr) (v : Byte) : KeptBut [.busRegs] s (s.latchWrite a v) := by
  intro p hp
  cases p <;> simp_all [Part.kept]

theorem State.setReg_regsKeptBut (s : State) (r : Reg) (v : Byte) : RegsKeptBut [r] s (s.setReg r v) :=
  fun _ hr' => s.reg_setReg_ne v (List.ne_of_not_mem_cons hr')

/-- A register write and then the `pc`: the whole effect of `move`, whichever register is the destination (R170). -/
theorem State.setReg_advance_did (s : State) (r : Reg) (v : Byte) (n : Nat) :
    ((s.setReg r v).advance n).reg r = v ∧ RegsKeptBut [r] s ((s.setReg r v).advance n) ∧
      KeptBut [.regs] s ((s.setReg r v).advance n) :=
  ⟨s.reg_setReg_self r v, s.setReg_regsKeptBut r v, (s.setReg_keptBut r v).trans (State.advance_keptBut _ n)⟩

end Sys2Proof.Machine
end

section
/-! PROOFS. The obligations on MOVE, LOAD and STORE (43_move_load_store.md). By definition `exec` answers `execStore`
for `store`, and the register written, the read latched and the `pc` advanced for `load`. -/

namespace Sys2Proof.Machine

/-! ### What they answer, setting by setting and half by half -/

theorem exec_move_of_srcFirst {s : State} (r1 r2 : Reg) (h : s.cfg.moveDir = .srcFirst) :
    exec (.move r1 r2) s = .next ((s.setReg r2 (s.reg r1)).advance 3) := by
  simp [exec, execMove, moveOperands, h]

theorem exec_move_of_dstFirst {s : State} (r1 r2 : Reg) (h : s.cfg.moveDir = .dstFirst) :
    exec (.move r1 r2) s = .next ((s.setReg r1 (s.reg r2)).advance 3) := by
  simp [exec, execMove, moveOperands, h]

theorem exec_store_of_ram {s : State} (r : Reg) {x : AddrOperand} (ram : 0x8000 ≤ (s.address x).toNat) :
    exec (.store r x) s =
      .next (((s.poke (s.address x) (s.reg r)).latchWrite (s.address x) (s.reg r)).advance 4) := by
  obtain ⟨-, writes⟩ | ⟨rom, -⟩ := execStore_cases r x s
  · exact writes
  · omega

theorem exec_store_of_rom {s : State} (r : Reg) {x : AddrOperand} (rom : (s.address x).toNat < 0x8000) :
    exec (.store r x) s = .fault (.storeToROM (s.address x) s.pc) := by
  obtain ⟨ram, -⟩ | ⟨-, raises⟩ := execStore_cases r x s
  · omega
  · exact raises

/-! ### The obligations -/

/-- Settles O38: each setting of MOVE_DIR makes one clause the effect of the copy and the other one vacuous. -/
theorem moveCopies : Obligations.MoveCopies := by
  refine ⟨shapeRR_of_row (fun _ _ => rfl) decode_0x20, fun r1 r2 s => ?_⟩
  cases dir : s.cfg.moveDir with
  | srcFirst =>
    obtain ⟨copied, others, frame⟩ := s.setReg_advance_did r2 (s.reg r1) 3
    exact ⟨_, exec_move_of_srcFirst r1 r2 dir, fun _ => ⟨copied, others⟩, nofun, rfl, frame⟩
  | dstFirst =>
    obtain ⟨copied, others, frame⟩ := s.setReg_advance_did r1 (s.reg r2) 3
    exact ⟨_, exec_move_of_dstFirst r1 r2 dir, nofun, fun _ => ⟨copied, others⟩, rfl, frame⟩

/-- Settles O39: the byte at the address goes to the register, and latching the read touches MAR and ODR only. -/
theorem loadReadsAByte : Obligations.LoadReadsAByte := by
  refine ⟨load_encodedAs, fun a1 a2 b rest hb => ?fault, fun x r s => ?_⟩
  case fault => exact (decodeList_load a1 a2 b rest).trans (withReg_of_seven_lt 3 _ hb)
  have frame := ((s.setReg_keptBut r (s.memRead (s.address x))).trans
    (State.latchRead_keptBut _ (s.address x) (s.memRead (s.address x)))).trans (State.advance_keptBut _ 4)
  exact ⟨_, rfl, s.reg_setReg_self r _, s.setReg_regsKeptBut r _, rfl, rfl, rfl, frame⟩

/-- Settles O40: from 0x8000 on one byte is put and the write latched in MAR and IDR; below, the fault. -/
theorem storeWritesOneByteOfRam : Obligations.StoreWritesOneByteOfRam := by
  refine ⟨store_encodedAs, fun b a1 a2 rest hb => ?fault, fun r x s => ⟨fun ram => ?_, exec_store_of_rom r⟩⟩
  case fault => exact (decodeList_store b a1 a2 rest).trans (withReg_of_seven_lt 1 _ hb)
  have frame := ((s.poke_keptBut (s.address x) (s.reg r)).trans
    (State.latchWrite_keptBut _ (s.address x) (s.reg r))).trans (State.advance_keptBut _ 4)
  exact ⟨_, exec_store_of_ram r ram, s.memRead_poke_self _ _, fun _ => s.memRead_poke_ne _, rfl, rfl, rfl, frame⟩

end Sys2Proof.Machine
end

section
/-! PROOFS. When a step leaves the state as it is (10_state.md R40) and when it runs an instruction (30_encoding.md R90),
and the frames of fetching (10_state.md R36) and of stopping the clock. -/

namespace Sys2Proof.Machine

/-! ### Frames -/

theorem State.latchFetch_keptBut (s : State) (n : Nat) : KeptBut [.busRegs] s (s.latchFetch n) := by
  intro p hp
  cases p <;> simp_all [Part.kept]

theorem State.stopClock_keptBut (s : State) : KeptBut [.clock] s s.stopClock := by
  intro p hp
  cases p <;> simp_all [Part.kept]

/-! ### Steps and runs -/

theorem step_of_halted {s : State} (halted : s.halted = true) : step s = .next s := by
  simp [step, halted]

theorem step_of_fetchDecode {s : State} {i : Instr} (running : s.halted = false) (decodes : s.fetchDecode = .ok i) :
    step s = exec i (s.latchFetch i.length) := by
  simp [step, running, decodes]

/-- A run whose first step goes on is the run from there, on any machine. -/
theorem run_succ_of_step (M : Host.Core) {s t : M.State} (n : Nat) (steps : M.step s = .next t) :
    M.run (n + 1) s = M.run n t := by
  rw [Host.Core.run, steps]

/-- A halted machine stays as it is for any number of steps (10_state.md R40). -/
theorem core_run_of_halted {s : State} (halted : s.halted = true) (n : Nat) : Sys2Proof.core.run n s = .next s := by
  induction n with
  | zero => rfl
  | succ n ih => exact (run_succ_of_step Sys2Proof.core n (step_of_halted halted)).trans ih

end Sys2Proof.Machine
end

section
/-! PROOFS. The obligations on DCR, INC, HLT and NOP (44_dcr_inc_hlt_nop.md). By definition `exec` answers `alu2Instr`
with the constant 0x01 for `inc` and `dcr`, and the `pc` advanced by 1 for `hlt` and `nop`. -/

namespace Sys2Proof.Machine

/-- Adding 0x01 carries from 0xff only. -/
theorem carry_add_one_iff (x : Byte) : 256 ≤ x.toNat + (0x01 : Byte).toNat ↔ x = 0xff := by
  bv_omega

/-- Byte 0 alone selects `nop`. -/
theorem State.fetchDecode_of_nop {s : State} (opcode : s.memRead s.pc = 0xfe) : s.fetchDecode = .ok .nop := by
  rw [State.fetchDecode, State.fetch8_zero, opcode, decode_0xfe]

/-- Settles O20: the routing with 0x01 as right operand. -/
theorem incAndDcrCompute : Obligations.IncAndDcrCompute := by
  refine ⟨shapeR_of_row (fun _ => rfl) decode_0xa1, shapeR_of_row (fun _ => rfl) decode_0xa0,
    fun r s h => ⟨?inc, alu2Instr_sub8_did 0x01 2 (runs_of_immediate h)⟩⟩
  case inc =>
    obtain ⟨t, next, did, hcf, hdraws⟩ := alu2Instr_add8_did 0x01 2 (runs_of_immediate h)
    exact ⟨t, next, did, hcf.trans (decide_eq_decide.2 (carry_add_one_iff _)), hdraws⟩

/-- Settles O42: the clock is stopped, so every later step leaves the state as it is. -/
theorem hltHalts : Obligations.HltHalts :=
  ⟨shapeN_of_row rfl decode_0xff, fun s => ⟨s.stopClock.advance 1, rfl, rfl, rfl,
    s.stopClock_keptBut.trans (State.advance_keptBut _ 1), core_run_of_halted rfl⟩⟩

/-- Settles O43: fetching the one byte latches it and its address, and `nop` itself moves the `pc` only. -/
theorem nopDoesNothing : Obligations.NopDoesNothing := by
  refine ⟨shapeN_of_row rfl decode_0xfe, fun s => ⟨s.advance 1, rfl, rfl, s.advance_keptBut 1⟩,
    fun s running opcode => ?_⟩
  have steps : step s = .next ((s.latchFetch 1).advance 1) :=
    step_of_fetchDecode running (State.fetchDecode_of_nop opcode)
  have frame := (s.latchFetch_keptBut 1).trans (State.advance_keptBut _ 1)
  refine ⟨_, steps, rfl, ?mar, ?ir, ?odr, rfl, frame⟩
  case mar => simp
  case ir => simp [opcode]
  case odr => simp [opcode]

end Sys2Proof.Machine
end

section
/-! PROOFS. What the rotates and shifts do (45_rotates_and_shifts.md R190, R191): the one-operand routing once for every
operation, the carries, and the four operations as moves by one place. -/

namespace Sys2Proof.Machine

/-! ### The one-operand routing -/

theorem State.alu1_keptBut (s : State) (op : Byte → Byte × Bool) (rd : Reg) :
    KeptBut [.regs, .flags] s (s.alu1 op rd) := by
  intro p hp
  cases p <;> simp_all [Part.kept]

theorem State.alu1i_keptBut (s : State) (op : Byte → Byte × Bool) (v : Byte) (rd : Reg) :
    KeptBut [.regs] s (s.alu1i op v rd) := by
  intro p hp
  cases p <;> simp_all [Part.kept]

/-- Registers after either form of the routing: the result `x` goes to A and to the named register, B only if named
(R191). -/
theorem alu1Did_of_reg {rd : Reg} {x : Byte} {len : Addr} {s t : State}
    (regs : ∀ r, t.reg r = if r = rd ∨ r = .a then x else s.reg r) (pc : t.pc = s.pc + len) : Alu1Did rd x len s t := by
  refine ⟨by simp [regs], by simp [regs], fun r hr => ?others, pc⟩
  case others =>
    obtain ⟨ha, hd⟩ : r ≠ .a ∧ r ≠ rd := by simpa using hr
    simp [regs, ha, hd]

/-- The value drawn does not matter: it is used under Any only, where nothing is said of CF. -/
theorem shiftCarryDid_of_cf {s t : State} {drawn out : Bool} (hcf : t.cf = shiftCarry s.cfg.shiftCarry s.cf drawn out)
    (hdraws : t.draws = s.draws + shiftDraws s.cfg.shiftCarry) : ShiftCarryDid s t out := by
  refine ⟨fun h => ?_, fun h => ?_, fun h => ?_⟩ <;> simp [hcf, hdraws, h, shiftCarry, shiftDraws]

/-- A flag-setting rotate or shift of a register, in the terms of the statements: `Moves` says how the operation's
result comes from the register. -/
theorem alu1Instr_did {op : Byte → Byte × Bool} {rd : Reg} {s : State} {Moves : Byte → Prop}
    (moves : Moves (op (s.reg rd)).1) :
    ∃ t x, alu1Instr op rd s = .next t ∧ Moves x ∧ Alu1Did rd x 2 s t ∧ ZeroAndSignOf x t ∧
      ShiftCarryDid s t (op (s.reg rd)).2 ∧ KeptBut [.regs, .flags, .draws] s t := by
  refine ⟨_, _, rfl, moves, alu1Did_of_reg (s.reg_alu1 op rd) rfl, ⟨?zero, ?sign⟩,
    shiftCarryDid_of_cf (s.cf_alu1 op rd) rfl, ?frame⟩
  case zero => exact s.zf_alu1 op rd
  case sign => exact (s.sf_alu1 op rd).trans (BitVec.msb_eq_getLsbD_last _)
  case frame => exact ((s.alu1_keptBut op rd).trans (State.countDraws_keptBut _ _)).trans (State.advance_keptBut _ 2)

/-- A rotate or shift of a constant, in the same terms; the frame keeps the flags and the count of draws. -/
theorem alu1iInstr_did {op : Byte → Byte × Bool} {v : Byte} {rd : Reg} {s : State} {Moves : Byte → Prop}
    (moves : Moves (op v).1) :
    ∃ t x, alu1iInstr op v rd s = .next t ∧ Moves x ∧ Alu1Did rd x 3 s t ∧ KeptBut [.regs] s t :=
  ⟨_, _, rfl, moves, alu1Did_of_reg (s.reg_alu1i op v rd) rfl,
    (s.alu1i_keptBut op v rd).trans (State.advance_keptBut _ 3)⟩

/-! ### The four operations -/

/-- The bit that re-enters, as the statements write it. -/
theorem rotateBit_eq_rotatedIn (s : State) (out : Bool) : rotateBit s.cfg.rotateKind s.cf out = rotatedIn s out := by
  cases kind : s.cfg.rotateKind <;> simp [rotateBit, rotatedIn, kind]

theorem ror8_movedDown (s : State) (x : Byte) :
    MovedDown x (ror8 s.cfg.rotateKind s.cf x).1 (rotatedIn s (x.getLsbD 0)) := by
  rw [← rotateBit_eq_rotatedIn]
  exact ror8_bits _ _ x

theorem rol8_movedUp (s : State) (x : Byte) :
    MovedUp x (rol8 s.cfg.rotateKind s.cf x).1 (rotatedIn s (x.getLsbD 7)) := by
  rw [← rotateBit_eq_rotatedIn]
  exact rol8_bits _ _ x

theorem shr8_movedDown (s : State) (x : Byte) : MovedDown x (shr8 s.cfg.shiftFill x).1 (shiftedIn s x) := by
  obtain ⟨top, rest⟩ := shr8_bits s.cfg.shiftFill x
  refine ⟨top.trans ?_, rest⟩
  cases fill : s.cfg.shiftFill <;> simp [shiftedIn, fill]

theorem shl8_movedUp (x : Byte) : MovedUp x (shl8 x).1 false := shl8_bits x

end Sys2Proof.Machine
end

section
/-! PROOFS. The obligations on the rotates and shifts (45_rotates_and_shifts.md). By definition `exec` answers
`alu1Instr` of the operation for a register and `alu1iInstr` of it for a constant, and the operation's carry is the bit
moved out. -/

namespace Sys2Proof.Machine

/-- Settles O22: the routing of the two rotates, from the register. -/
theorem rorAndRolRotate : Obligations.RorAndRolRotate :=
  ⟨shapeR_of_row (fun _ => rfl) decode_0xe0, shapeR_of_row (fun _ => rfl) decode_0xe1,
    fun _ s => ⟨alu1Instr_did (ror8_movedDown s _), alu1Instr_did (rol8_movedUp s _)⟩⟩

/-- Settles O23: the routing of the two shifts, from the register. -/
theorem sfrAndSflShift : Obligations.SfrAndSflShift :=
  ⟨shapeR_of_row (fun _ => rfl) decode_0xe4, shapeR_of_row (fun _ => rfl) decode_0xe5,
    fun _ s => ⟨alu1Instr_did (shr8_movedDown s _), alu1Instr_did (shl8_movedUp _)⟩⟩

/-- Settles O24: the routing of the two rotates, from the constant. -/
theorem rriAndRliRotateTheConstant : Obligations.RriAndRliRotateTheConstant :=
  ⟨shapeVR_of_row (fun _ _ => rfl) decode_0xe2, shapeVR_of_row (fun _ _ => rfl) decode_0xe3,
    fun v _ s => ⟨alu1iInstr_did (ror8_movedDown s v), alu1iInstr_did (rol8_movedUp s v)⟩⟩

/-- Settles O25: the routing of the two shifts, from the constant. -/
theorem sliAndSriShiftTheConstant : Obligations.SliAndSriShiftTheConstant :=
  ⟨shapeVR_of_row (fun _ _ => rfl) decode_0xe6, shapeVR_of_row (fun _ _ => rfl) decode_0xe7,
    fun v _ s => ⟨alu1iInstr_did (shl8_movedUp v), alu1iInstr_did (shr8_movedDown s v)⟩⟩

end Sys2Proof.Machine
end

section
/-! PROOFS. The encodings of `in` and `out`, the only instructions of formats PR and RP (30_encoding.md R82, R91, R92). -/

namespace Sys2Proof.Machine

/-! ### Port bytes -/

/-- The check passes on a port's number. -/
@[simp] theorem withPort_code (p : Port) (k : Port → Except DecodeError Instr) : withPort p.code k = k p := by
  simp [withPort]

/-- The check fails on a byte that is neither 0x01 nor 0x02, whatever would come after it. -/
theorem withPort_of_ne {b : Byte} (k : Port → Except DecodeError Instr) (h1 : b ≠ 0x01) (h2 : b ≠ 0x02) :
    withPort b k = .error (.invalidPort b) := by
  simp [withPort, (Port.ofByte_eq_none b).2 ⟨h1, h2⟩]

/-! ### The two formats -/

/-- The port byte in position 1 is checked before the register byte in position 2. -/
theorem decodeList_in (b1 b2 : Byte) (rest : List Byte) :
    decodeList (0xb0 :: b1 :: b2 :: rest) = withPort b1 fun p => withReg 2 b2 fun r => .ok (.in_ p r) :=
  decode_0xb0 b1 b2 _

/-- The register byte in position 1 is checked before the port byte in position 2. -/
theorem decodeList_out (b1 b2 : Byte) (rest : List Byte) :
    decodeList (0xb1 :: b1 :: b2 :: rest) = withReg 1 b1 fun r => withPort b2 fun p => .ok (.out r p) :=
  decode_0xb1 b1 b2 _

/-- After a port that passes, only the register byte is left to check. -/
theorem decodeList_in_code (p : Port) (b : Byte) (rest : List Byte) :
    decodeList (0xb0 :: p.code :: b :: rest) = withReg 2 b fun r => .ok (.in_ p r) :=
  (decodeList_in p.code b rest).trans (withPort_code p _)

/-- After a register that passes, only the port byte is left to check. -/
theorem decodeList_out_code (r : Reg) (b : Byte) (rest : List Byte) :
    decodeList (0xb1 :: r.code :: b :: rest) = withPort b fun p => .ok (.out r p) :=
  (decodeList_out r.code b rest).trans (withReg_code 1 r _)

theorem in_encodedAs (p : Port) (r : Reg) : EncodedAs (.in_ p r) [0xb0, p.code, r.code] :=
  ⟨rfl, fun rest => (decodeList_in_code p r.code rest).trans (withReg_code 2 r _)⟩

theorem out_encodedAs (r : Reg) (p : Port) : EncodedAs (.out r p) [0xb1, r.code, p.code] :=
  ⟨rfl, fun rest => (decodeList_out_code r p.code rest).trans (withPort_code p _)⟩

end Sys2Proof.Machine
end

section
/-! PROOFS. The frames of a port write and of the acknowledge pulse (10_state.md R37, R38; 60_exceptions.md R262), and
when an `out` pulses (46_in_out.md R211). -/

namespace Sys2Proof.Machine

theorem State.setOutp_keptBut (s : State) (p : Port) (v : Byte) : KeptBut [.ports] s (s.setOutp p v) := by
  intro q hq
  cases q <;> simp_all [Part.kept]

theorem State.ackPulse_keptBut (s : State) : KeptBut [.vram, .lines] s s.ackPulse := by
  intro q hq
  cases q <;> simp_all [Part.kept]

/-- All an `out` can do: write the port and pulse, or, for port 2 under Port1Only alone, write the port only. -/
theorem exec_out_cases (r : Reg) (p : Port) (s : State) :
    ((s.cfg.ackScope = .anyOut ∨ p = .p1) ∧
      exec (.out r p) s = .next ((s.setOutp p (s.reg r)).ackPulse.advance 3)) ∨
    ((s.cfg.ackScope = .port1Only ∧ p = .p2) ∧ exec (.out r p) s = .next ((s.setOutp p (s.reg r)).advance 3)) := by
  cases scope : s.cfg.ackScope with
  | anyOut => exact .inl ⟨.inl rfl, by simp [exec, execOut, pulsesAck, scope]⟩
  | port1Only =>
    cases p with
    | p1 => exact .inl ⟨.inr rfl, by simp [exec, execOut, pulsesAck, scope]⟩
    | p2 => exact .inr ⟨⟨rfl, rfl⟩, by simp [exec, execOut, pulsesAck, scope]⟩

end Sys2Proof.Machine
end

section
/-! PROOFS. The obligations on IN and OUT (46_in_out.md). By definition `exec` answers, for `in`, the register written
with the byte of this draw, the draw counted and the `pc` advanced. -/

namespace Sys2Proof.Machine

/-- Settles O44: one register write, whatever the byte drawn for it, and one draw counted. -/
theorem inReadsThePort : Obligations.InReadsThePort := by
  refine ⟨in_encodedAs, fun b b2 rest h1 h2 => ?portFault, fun p b rest hb => ?regFault, fun p r s => ?_⟩
  case portFault => exact (decodeList_in b b2 rest).trans (withPort_of_ne _ h1 h2)
  case regFault => exact (decodeList_in_code p b rest).trans (withReg_of_seven_lt 2 _ hb)
  have frame := ((s.setReg_keptBut r (s.inp p)).trans (State.countDraws_keptBut _ 1)).trans (State.advance_keptBut _ 3)
  exact ⟨_, rfl, s.reg_setReg_self r _, rfl, s.setReg_regsKeptBut r _, rfl, frame⟩

/-- Settles O45: where ACK_SCOPE pulses, the capture reads both ports as the write left them; elsewhere only the port
is written. The clause for the other case is vacuous. -/
theorem outWritesThePortAndPulses : Obligations.OutWritesThePortAndPulses := by
  refine ⟨out_encodedAs, fun b b2 rest hb => ?regFault, fun r b rest h1 h2 => ?portFault, fun r p s => ?_⟩
  case regFault => exact (decodeList_out b b2 rest).trans (withReg_of_seven_lt 1 _ hb)
  case portFault => exact (decodeList_out_code r b rest).trans (withPort_of_ne _ h1 h2)
  have written := s.setOutp_keptBut p (s.reg r)
  obtain ⟨pulses, runs⟩ | ⟨⟨scope, port⟩, runs⟩ := exec_out_cases r p s
  · have frame := (written.trans (State.ackPulse_keptBut _)).trans (State.advance_keptBut _ 3)
    refine ⟨_, runs, by simp, by simp, fun _ => ⟨?first, ?second, rfl⟩, fun ⟨scope, port⟩ => ?vacuous, by simp, by simp,
      frame⟩
    case first => simp [State.ackPulse_v1]
    case second => simp [State.ackPulse_v2]
    case vacuous => simp [scope, port] at pulses
  · have frame := (written.trans (State.advance_keptBut _ 3)).mono (qs := [.ports, .vram, .lines]) (by simp)
    refine ⟨_, runs, by simp, by simp, fun pulses => ?vacuous, fun _ => ⟨?first, ?second, ?line⟩, by simp, by simp,
      frame⟩
    case vacuous => simp [scope, port] at pulses
    case first | second | line => simp

end Sys2Proof.Machine
end

section
/-! PROOFS. The frame of the SGR pulse, and the obligation on SGR (48_sgr.md; 60_exceptions.md R263 to R265). By
definition `exec` answers the pulse and then the `pc` advanced. -/

namespace Sys2Proof.Machine

theorem State.sgrPulse_keptBut (s : State) : KeptBut [.latch, .lines] s s.sgrPulse := by
  intro q hq
  cases q <;> simp_all [Part.kept]

/-- Settles O46: one pulse, on whose rising edge the SDP-1G latches the two VRAM registers as they stand. -/
theorem sgrLatchesTheVram : Obligations.SgrLatchesTheVram := by
  refine ⟨shapeN_of_row rfl decode_0xb8, fun s => ⟨s.sgrPulse.advance 1, rfl, ?latch, ?signal, ?ack, rfl, ?frame⟩⟩
  case latch => simp
  case signal => simp
  case ack => simp
  case frame => exact s.sgrPulse_keptBut.trans (State.advance_keptBut _ 1)

end Sys2Proof.Machine
end

section
/-! PROOFS. The decoder row by row (30_encoding.md R90 to R95): what a row accepts it has read from its own bytes, and
what it rejects is an operand byte that its opcode's format does not allow. -/

namespace Sys2Proof.Machine

/-! ### What a row may answer -/

/-- Why the operand bytes `bs` of an opcode of format `f` are none: one of them stands where the format wants a register
or a port and is none (R91, R92). Positions count from 1, since byte 0 is the opcode. -/
def RejectedAs (f : Format) (bs : List Byte) : DecodeError → Prop
  | .invalidOpcode _ => False
  | .invalidRegister b pos => ∃ k : Nat, pos = k + 1 ∧ f.operandBytes[k]? = some .reg ∧ bs[k]? = some b ∧ 7 < b.toNat
  | .invalidPort b => ∃ k : Nat, f.operandBytes[k]? = some .port ∧ bs[k]? = some b ∧ b ≠ 0x01 ∧ b ≠ 0x02

/-- An answer about the opcode `op` of format `f` before the operand bytes `bs` that these bytes account for: an
instruction whose encoding they begin with, or an error the format has a reason for. -/
def AccountedFor (op : Byte) (f : Format) (bs : List Byte) : Except DecodeError Instr → Prop
  | .ok i => encode i <+: op :: bs
  | .error e => RejectedAs f bs e

/-- A row of the opcode map accounts for each of its answers, under the format that table T-R95 gives its opcode. -/
def RowAccounts (row : Row) : Prop :=
  ∃ f, formatOf row.1 = some f ∧ ∀ b1 b2 b3, AccountedFor row.1 f [b1, b2, b3] (row.2 b1 b2 b3)

/-! ### The two checks -/

section
variable {op : Byte} {f : Format} {bs : List Byte} {b : Byte}

/-- A register check at its position: what is left to account for is what comes after it. -/
theorem accountedFor_withReg (k : Nat) {next : Reg → Except DecodeError Instr}
    (wanted : f.operandBytes[k]? = some .reg) (found : bs[k]? = some b)
    (rest : ∀ r, b = r.code → AccountedFor op f bs (next r)) : AccountedFor op f bs (withReg (k + 1) b next) := by
  obtain ⟨r, code, passes⟩ | ⟨high, fails⟩ := withReg_cases (k + 1) b next
  · exact passes ▸ rest r code
  · exact fails ▸ ⟨k, rfl, wanted, found, high⟩

/-- A port check at its position. -/
theorem accountedFor_withPort (k : Nat) {next : Port → Except DecodeError Instr}
    (wanted : f.operandBytes[k]? = some .port) (found : bs[k]? = some b)
    (rest : ∀ p, b = p.code → AccountedFor op f bs (next p)) : AccountedFor op f bs (withPort b next) := by
  obtain ⟨p, code, passes⟩ | ⟨ne1, ne2, fails⟩ := withPort_cases b next
  · exact passes ▸ rest p code
  · exact fails ▸ ⟨k, wanted, found, ne1, ne2⟩

/-- An instruction whose encoding is the opcode and the first operand bytes. -/
theorem accountedFor_ok {i : Instr} {used : List Byte} (encodes : encode i = op :: used) (first : used <+: bs) :
    AccountedFor op f bs (.ok i) := by
  obtain ⟨rest, rfl⟩ := first
  exact ⟨rest, congrArg (· ++ rest) encodes⟩

end

/-! ### The formats -/

section
variable {op : Byte}

theorem rowAccounts_n {i : Instr} (format : formatOf op = some .n) (encodes : encode i = [op]) :
    RowAccounts (op, fun _ _ _ => .ok i) :=
  ⟨.n, format, fun b1 b2 b3 => accountedFor_ok encodes ⟨[b1, b2, b3], rfl⟩⟩

theorem rowAccounts_v {mk : Byte → Instr} (format : formatOf op = some .v) (encodes : ∀ v, encode (mk v) = [op, v]) :
    RowAccounts (op, fun b1 _ _ => .ok (mk b1)) :=
  ⟨.v, format, fun b1 b2 b3 => accountedFor_ok (encodes b1) ⟨[b2, b3], rfl⟩⟩

theorem rowAccounts_a {mk : AddrOperand → Instr} (format : formatOf op = some .a)
    (encodes : ∀ x, encode (mk x) = [op, x.a1, x.a2]) : RowAccounts (op, fun b1 b2 _ => decodeA mk b1 b2) :=
  ⟨.a, format, fun b1 b2 b3 => accountedFor_ok (encodes ⟨b1, b2⟩) ⟨[b3], rfl⟩⟩

theorem rowAccounts_r {mk : Reg → Instr} (format : formatOf op = some .r)
    (encodes : ∀ r, encode (mk r) = [op, r.code]) : RowAccounts (op, fun b1 _ _ => decodeR mk b1) := by
  refine ⟨.r, format, fun b1 b2 b3 => accountedFor_withReg 0 rfl rfl ?_⟩
  rintro r rfl
  exact accountedFor_ok (encodes r) ⟨[b2, b3], rfl⟩

theorem rowAccounts_vr {mk : Byte → Reg → Instr} (format : formatOf op = some .vr)
    (encodes : ∀ v r, encode (mk v r) = [op, v, r.code]) : RowAccounts (op, fun b1 b2 _ => decodeVR mk b1 b2) := by
  refine ⟨.vr, format, fun b1 b2 b3 => accountedFor_withReg 1 rfl rfl ?_⟩
  rintro r rfl
  exact accountedFor_ok (encodes b1 r) ⟨[b3], rfl⟩

theorem rowAccounts_rr {mk : Reg → Reg → Instr} (format : formatOf op = some .rr)
    (encodes : ∀ r1 r2, encode (mk r1 r2) = [op, r1.code, r2.code]) :
    RowAccounts (op, fun b1 b2 _ => decodeRR mk b1 b2) := by
  refine ⟨.rr, format, fun b1 b2 b3 => accountedFor_withReg 0 rfl rfl ?_⟩
  rintro r1 rfl
  refine accountedFor_withReg 1 rfl rfl ?_
  rintro r2 rfl
  exact accountedFor_ok (encodes r1 r2) ⟨[b3], rfl⟩

end

/-! ### The rows -/

theorem arithRows_account : ∀ row ∈ arithRows, RowAccounts row := by
  simp only [arithRows, List.forall_mem_cons]
  exact ⟨rowAccounts_vr rfl fun _ _ => rfl, rowAccounts_vr rfl fun _ _ => rfl, rowAccounts_vr rfl fun _ _ => rfl,
    rowAccounts_rr rfl fun _ _ => rfl, rowAccounts_rr rfl fun _ _ => rfl, rowAccounts_rr rfl fun _ _ => rfl,
    rowAccounts_rr rfl fun _ _ => rfl, rowAccounts_r rfl fun _ => rfl, rowAccounts_r rfl fun _ => rfl,
    rowAccounts_vr rfl fun _ _ => rfl, rowAccounts_vr rfl fun _ _ => rfl, List.forall_mem_nil _⟩

theorem flowRows_account : ∀ row ∈ flowRows, RowAccounts row := by
  simp only [flowRows, List.forall_mem_cons]
  exact ⟨rowAccounts_a rfl fun _ => rfl, rowAccounts_a rfl fun _ => rfl, rowAccounts_a rfl fun _ => rfl,
    rowAccounts_a rfl fun _ => rfl, rowAccounts_a rfl fun _ => rfl, rowAccounts_a rfl fun _ => rfl,
    rowAccounts_a rfl fun _ => rfl, rowAccounts_a rfl fun _ => rfl, rowAccounts_n rfl rfl, rowAccounts_n rfl rfl,
    rowAccounts_n rfl rfl, List.forall_mem_nil _⟩

theorem moveRows_account : ∀ row ∈ moveRows, RowAccounts row := by
  simp only [moveRows, List.forall_mem_cons]
  refine ⟨rowAccounts_v rfl fun _ => rfl, rowAccounts_r rfl fun _ => rfl, rowAccounts_r rfl fun _ => rfl,
    rowAccounts_rr rfl fun _ _ => rfl, ⟨.ar, rfl, fun b1 b2 b3 => ?load⟩, ⟨.ra, rfl, fun b1 b2 b3 => ?store⟩,
    ⟨.pr, rfl, fun b1 b2 b3 => ?in_⟩, ⟨.rp, rfl, fun b1 b2 b3 => ?out⟩, rowAccounts_n rfl rfl, List.forall_mem_nil _⟩
  case load =>
    refine accountedFor_withReg 2 rfl rfl ?_
    rintro r rfl
    exact accountedFor_ok rfl ⟨[], rfl⟩
  case store =>
    refine accountedFor_withReg 0 rfl rfl ?_
    rintro r rfl
    exact accountedFor_ok rfl ⟨[], rfl⟩
  case in_ =>
    refine accountedFor_withPort 0 rfl rfl ?_
    rintro p rfl
    refine accountedFor_withReg 1 rfl rfl ?_
    rintro r rfl
    exact accountedFor_ok rfl ⟨[b3], rfl⟩
  case out =>
    refine accountedFor_withReg 0 rfl rfl ?_
    rintro r rfl
    refine accountedFor_withPort 1 rfl rfl ?_
    rintro p rfl
    exact accountedFor_ok rfl ⟨[b3], rfl⟩

theorem shiftRows_account : ∀ row ∈ shiftRows, RowAccounts row := by
  simp only [shiftRows, List.forall_mem_cons]
  exact ⟨rowAccounts_r rfl fun _ => rfl, rowAccounts_r rfl fun _ => rfl, rowAccounts_vr rfl fun _ _ => rfl,
    rowAccounts_vr rfl fun _ _ => rfl, rowAccounts_r rfl fun _ => rfl, rowAccounts_r rfl fun _ => rfl,
    rowAccounts_vr rfl fun _ _ => rfl, rowAccounts_vr rfl fun _ _ => rfl, List.forall_mem_nil _⟩

theorem opcodeRows_account {row : Row} (listed : row ∈ opcodeRows) : RowAccounts row := by
  simp only [opcodeRows, List.mem_append] at listed
  obtain ((arith | flow) | move) | shift := listed
  · exact arithRows_account row arith
  · exact flowRows_account row flow
  · exact moveRows_account row move
  · exact shiftRows_account row shift

/-! ### The opcode map and the format table -/

/-- An entry that a lookup finds is listed under its key. -/
theorem mem_of_lookup_eq_some {α : Type} {l : List (Byte × α)} {b : Byte} {x : α} (h : l.lookup b = some x) :
    (b, x) ∈ l := by
  obtain ⟨before, after, rfl, -⟩ := List.lookup_eq_some_iff.1 h
  simp

/-- A lookup finds nothing exactly where no entry has the key. -/
theorem lookup_eq_none_iff_notMem {α : Type} {l : List (Byte × α)} {b : Byte} :
    l.lookup b = none ↔ b ∉ l.map Prod.fst := by
  rw [List.lookup_eq_none_iff, List.mem_map, not_exists]
  exact forall_congr' fun p => by simp [eq_comm (a := b)]

/-- The decoder's map and the format table list the same opcodes (R95). -/
theorem opcodeRows_lookup_eq_none_iff (b : Byte) : opcodeRows.lookup b = none ↔ formatOf b = none := by
  have keys : (opcodeRows.map Prod.fst).Perm (opcodeFormats.map Prod.fst) := by decide
  rw [formatOf, lookup_eq_none_iff_notMem, lookup_eq_none_iff_notMem, keys.mem_iff]

/-- All decoding can answer: InvalidOpcode on a byte that is no opcode, else what the bytes account for. -/
theorem decode_cases (b0 b1 b2 b3 : Byte) :
    (formatOf b0 = none ∧ decode b0 b1 b2 b3 = .error (.invalidOpcode b0)) ∨
    ∃ f, formatOf b0 = some f ∧ AccountedFor b0 f [b1, b2, b3] (decode b0 b1 b2 b3) := by
  unfold decode
  cases found : opcodeRows.lookup b0 with
  | none => exact .inl ⟨(opcodeRows_lookup_eq_none_iff b0).1 found, rfl⟩
  | some row =>
    obtain ⟨f, format, accounts⟩ := opcodeRows_account (mem_of_lookup_eq_some found)
    exact .inr ⟨f, format, accounts b1 b2 b3⟩

/-- The only opcodes with a port operand are `in`, in byte 1, and `out`, in byte 2 (R92). -/
theorem opcode_of_port_operand {b : Byte} {f : Format} {k : Nat} (format : formatOf b = some f) (hk : k < 3)
    (wanted : f.operandBytes[k]? = some .port) : b = 0xb0 ∧ k = 0 ∨ b = 0xb1 ∧ k = 1 := by
  have table : ∀ row ∈ opcodeFormats, ∀ k < 3, row.2.operandBytes[k]? = some .port →
      row.1 = 0xb0 ∧ k = 0 ∨ row.1 = 0xb1 ∧ k = 1 := by decide
  exact table _ (mem_of_lookup_eq_some format) k hk wanted

end Sys2Proof.Machine
end

section
/-! PROOFS. The obligations on the faults of a step (60_exceptions.md R240 to R245). -/

namespace Sys2Proof.Machine

/-! ### What running can raise -/

/-- A two-operand ALU instruction goes on or is refused; it raises nothing. -/
theorem alu2Instr_raises_nothing {op : Byte → Byte → Byte × Bool} {n : Nat} {rd : Reg} {v : Byte} {rightIsB : Bool}
    {len : Nat} {s : State} {f : Fault} (raises : alu2Instr op n rd v rightIsB len s = .fault f) : False := by
  obtain ⟨-, runs⟩ | ⟨-, -, -, refused⟩ := alu2Instr_cases op n rd v rightIsB len s
  · exact nomatch runs.symm.trans raises
  · exact nomatch refused.symm.trans raises

/-- The only fault an instruction raises when it runs is StoreToROM, by `store` (R244). -/
theorem store_of_exec_fault {i : Instr} {s : State} {f : Fault} (raises : exec i s = .fault f) :
    ∃ r x, i = .store r x ∧ (s.address x).toNat < 0x8000 ∧ f = .storeToROM (s.address x) s.pc := by
  cases i
  case store r x =>
    obtain ⟨-, runs⟩ | ⟨rom, faults⟩ := execStore_cases r x s
    · exact nomatch runs.symm.trans raises
    · exact ⟨r, x, rfl, rom, (Host.Outcome.fault.inj (faults.symm.trans raises)).symm⟩
  case sub | add | xor | nand | dcr | inc | adi | sbi | xri | nandi => exact (alu2Instr_raises_nothing raises).elim
  all_goals exact nomatch raises

/-! ### The bytes a step decodes -/

/-- All that decoding at the `pc` can answer. -/
theorem State.fetchDecode_cases (s : State) :
    (formatOf (s.memRead s.pc) = none ∧ s.fetchDecode = .error (.invalidOpcode (s.memRead s.pc))) ∨
    ∃ f, formatOf (s.memRead s.pc) = some f ∧
      AccountedFor (s.memRead s.pc) f [s.fetch8 1, s.fetch8 2, s.fetch8 3] s.fetchDecode := by
  simpa [State.fetchDecode] using decode_cases (s.fetch8 0) (s.fetch8 1) (s.fetch8 2) (s.fetch8 3)

/-- Byte `k + 1` of the instruction, read off the list of operand bytes. -/
theorem State.operand_byte {s : State} {k : Nat} {b : Byte}
    (found : [s.fetch8 1, s.fetch8 2, s.fetch8 3][k]? = some b) : k < 3 ∧ b = s.fetch8 (k + 1) := by
  match k, found with
  | 0, found | 1, found | 2, found => exact ⟨by decide, (Option.some.inj found).symm⟩

theorem code_le_seven (r : Reg) : r.code.toNat ≤ 7 := by
  cases r <;> decide

/-- Bytes that decode to a `store` are its encoding (R82). -/
theorem State.bytes_of_store {s : State} {r : Reg} {x : AddrOperand} (decodes : s.fetchDecode = .ok (.store r x)) :
    s.memRead s.pc = 0x11 ∧ s.fetch8 1 = r.code ∧ x = ⟨s.fetch8 2, s.fetch8 3⟩ := by
  obtain ⟨-, fails⟩ | ⟨f, -, accounted⟩ := s.fetchDecode_cases
  · exact nomatch fails.symm.trans decodes
  · rw [decodes] at accounted
    have bytes : [0x11, r.code, x.a1, x.a2] = [s.memRead s.pc, s.fetch8 1, s.fetch8 2, s.fetch8 3] :=
      List.IsPrefix.eq_of_length accounted rfl
    simp only [List.cons.injEq, and_true] at bytes
    obtain ⟨op, code, low, high⟩ := bytes
    exact ⟨op.symm, code.symm, by rw [← low, ← high]⟩

/-! ### The obligations -/

/-- Settles O8: the format table and the decoder have the same opcodes, so decoding answers the byte itself. -/
theorem undefinedOpcodeStops : Obligations.UndefinedOpcodeStops := by
  intro s running undefined
  obtain ⟨-, fails⟩ | ⟨f, format, -⟩ := s.fetchDecode_cases
  · simp [step, running, fails, raise, decodeFault]
  · exact nomatch undefined.symm.trans format

/-- Settles O10: a step faults where decoding fails, and the row that failed accounts for the error, or where a `store`
that was decoded from the bytes at the `pc` finds its address in ROM. -/
theorem faultsHaveTheirReasons : Obligations.FaultsHaveTheirReasons := by
  intro s f faults
  obtain ⟨-, stays⟩ | ⟨running, i, decodes, runs⟩ | ⟨running, e, fails, raises⟩ := step_cases s
  · exact nomatch stays.symm.trans faults
  · obtain ⟨r, x, rfl, rom, rfl⟩ := store_of_exec_fault (runs.symm.trans faults)
    obtain ⟨op, code, rfl⟩ := State.bytes_of_store decodes
    exact ⟨running, rfl, op, (congrArg BitVec.toNat code).le.trans (code_le_seven r), rfl, rom⟩
  · obtain rfl : decodeFault s.pc e = f := Host.Outcome.fault.inj (raises.symm.trans faults)
    refine ⟨running, ?_⟩
    obtain ⟨undefined, invalid⟩ | ⟨fmt, format, accounted⟩ := s.fetchDecode_cases
    · obtain rfl : e = .invalidOpcode (s.memRead s.pc) := Except.error.inj (fails.symm.trans invalid)
      exact ⟨rfl, rfl, undefined⟩
    · rw [fails] at accounted
      cases e with
      | invalidOpcode b => exact accounted.elim
      | invalidRegister b pos =>
        obtain ⟨k, rfl, wanted, found, high⟩ := accounted
        obtain ⟨hk, rfl⟩ := State.operand_byte found
        exact ⟨rfl, by omega, rfl, high, fmt, format, wanted⟩
      | invalidPort b =>
        obtain ⟨k, wanted, found, ne1, ne2⟩ := accounted
        obtain ⟨hk, rfl⟩ := State.operand_byte found
        refine ⟨rfl, ne1, ne2, ?_⟩
        obtain ⟨op, rfl⟩ | ⟨op, rfl⟩ := opcode_of_port_operand format hk wanted
        · exact .inl ⟨op, rfl⟩
        · exact .inr ⟨op, rfl⟩

end Sys2Proof.Machine
end

section
/-! PROOFS. The obligations on the SDP-1G and the SDP-1D (60_exceptions.md R262, R266; 70_reset_and_hazards.md R291). -/

namespace Sys2Proof.Machine

/-! ### Selector and byte -/

/-- An `out` to port 2 sets the selector; whether or not it pulses, it captures into a VRAM register only where the byte
it writes selects that register. -/
theorem selector_written {r : Reg} {s t : State} (runs : exec (.out r .p2) s = .next t) :
    t.outp2 = s.reg r ∧ (∀ r', t.reg r' = s.reg r') ∧ (s.reg r ≠ 0xff → t.v1 = s.v1) ∧
      (s.reg r ≠ 0xfe → t.v2 = s.v2) := by
  obtain ⟨-, pulsed⟩ | ⟨-, written⟩ := exec_out_cases r .p2 s
  · obtain rfl := Host.Outcome.next.inj (pulsed.symm.trans runs)
    simp +contextual [State.ackPulse_v1, State.ackPulse_v2]
  · obtain rfl := Host.Outcome.next.inj (written.symm.trans runs)
    simp

/-- An `out` to port 1 pulses under either ACK_SCOPE, so the register that port 2 selects takes the byte. -/
theorem byte_captured {r : Reg} {s t : State} (runs : exec (.out r .p1) s = .next t) :
    t.v1 = (if s.outp2 = 0xff then s.reg r else s.v1) ∧ t.v2 = (if s.outp2 = 0xfe then s.reg r else s.v2) := by
  obtain ⟨-, pulsed⟩ | ⟨⟨-, port⟩, -⟩ := exec_out_cases r .p1 s
  · obtain rfl := Host.Outcome.next.inj (pulsed.symm.trans runs)
    simp [State.ackPulse_v1, State.ackPulse_v2]
  · exact nomatch port

/-- Settles O47: what the first `out` may have captured lies in the register that the second one fills. -/
theorem selectorThenByteFillsTheVram : Obligations.SelectorThenByteFillsTheVram := by
  intro r r' s t u selects sends
  obtain ⟨selector, regs, first, second⟩ := selector_written selects
  obtain ⟨hv1, hv2⟩ := byte_captured sends
  rw [selector, regs] at hv1 hv2
  refine ⟨fun sel => ?v1, fun sel => ?v2, fun ne1 ne2 => ?none⟩
  case v1 => simp [hv1, hv2, sel, second]
  case v2 => simp [hv1, hv2, sel, first]
  case none => exact ⟨by rw [hv1, if_neg ne1, first ne1], by rw [hv2, if_neg ne2, second ne2]⟩

/-! ### Pins and LEDs -/

/-- A pin map that passes the check sends no two bits to one pin. -/
theorem glPinMap_injective {c : Config} (wf : c.wf = true) {j k : Fin 16} (same : c.glPinMap[j] = c.glPinMap[k]) :
    j = k := by
  have nodup : c.glPinMap.toList.Nodup := of_decide_eq_true wf
  exact Fin.ext ((nodup.getElem_inj_iff (hi := by simp) (hj := by simp)).1 (by simpa using same))

theorem straightPins_getElem (k : Fin 16) : Config.straightPins[k] = k := by
  revert k; decide

/-- Under a map that passes the check, a bit is the only one on its pin. -/
theorem State.pin_glPinMap {s : State} (wf : s.cfg.wf = true) (k : Fin 16) :
    s.pin s.cfg.glPinMap[k] = s.gl.getLsbD k := by
  have only (j : Fin 16) : s.cfg.glPinMap[j] = s.cfg.glPinMap[k] ↔ j = k :=
    ⟨glPinMap_injective wf, fun h => h ▸ rfl⟩
  rw [Bool.eq_iff_iff]
  simp only [State.pin, only]
  simp

/-- Settles O48: the default map passes the check and sends bit k to pin k, which drives LED k. -/
theorem ledsShowTheLatch : Obligations.LedsShowTheLatch := by
  refine fun s k => ⟨fun wf => State.pin_glPinMap wf k, fun straight => ?_⟩
  have wf : s.cfg.wf = true := by rw [Config.wf, straight]; decide
  calc s.led k = s.pin s.cfg.glPinMap[k] := by rw [State.led, straight, straightPins_getElem]
    _ = s.gl.getLsbD k := State.pin_glPinMap wf k

end Sys2Proof.Machine
end

section
/-! PROOFS. The obligation on a power cycle (60_exceptions.md R270; 70_reset_and_hazards.md R280, R281). By definition
the `pc`, `halted`, the two signals, the parameters and the count of draws are what it names. -/

namespace Sys2Proof.Machine

/-- Memory after a power cycle: the old ROM below 0x8000 and the fresh RAM from there. -/
theorem State.memRead_powerCycle (s fresh : State) (a : Addr) :
    (s.powerCycle fresh).memRead a = if a.toNat < 0x8000 then s.memRead a else fresh.memRead a :=
  Memory.get_halves s.mem fresh.mem a.toNat

/-- Apart from memory, what a power cycle does not take from `fresh` is what power-up sets and what the model keeps. -/
theorem State.powerCycle_keptBut (s fresh : State) :
    KeptBut [.memory, .clock, .lines, .params, .draws] fresh (s.powerCycle fresh) := by
  intro p hp
  cases p with
  | regs => exact fun _ => rfl
  | flags => exact ⟨rfl, rfl, rfl⟩
  | stack => exact ⟨rfl, fun _ => rfl⟩
  | ports | vram => exact ⟨rfl, rfl⟩
  | latch => rfl
  | busRegs => exact ⟨rfl, rfl, rfl, rfl⟩
  | memory | clock | lines | params | draws => simp at hp

/-- Settles O59: the memory is the two halves put together, and every other part is named by the definition. -/
theorem powerCycleKeepsTheRom : Obligations.PowerCycleKeepsTheRom := by
  refine fun s fresh => ⟨rfl, rfl, rfl, rfl, fun a rom => ?rom, fun a ram => ?ram, s.powerCycle_keptBut fresh, rfl, rfl,
    fun hs hfresh => ⟨Memory.wf_halves _ _ hs hfresh, rfl, rfl⟩⟩
  case rom => rw [State.memRead_powerCycle, if_pos rom]
  case ram => rw [State.memRead_powerCycle, if_neg ram.not_gt]

end Sys2Proof.Machine
end

section
/-! PROOFS. The obligation on what every instruction leaves in A and B (70_reset_and_hazards.md R288): once for each of
the two ALU routings, and once for an instruction whose frame keeps the registers. -/

namespace Sys2Proof.Machine

/-! ### The ALU routings -/

/-- A two-operand ALU instruction that goes on leaves the result in A and its right operand in B, unless B is the
destination and holds the result too (R113, R114). -/
theorem alu2Instr_leaves {op : Byte → Byte → Byte × Bool} {n : Nat} {rd : Reg} {v : Byte} {rightIsB : Bool} {len : Nat}
    {s t : State} (runs : alu2Instr op n rd v rightIsB len s = .next t) :
    t.reg .a = t.reg rd ∧ (rd ≠ .b → t.reg .b = v) := by
  obtain ⟨-, goes⟩ | ⟨-, -, -, refused⟩ := alu2Instr_cases op n rd v rightIsB len s
  · obtain rfl := Host.Outcome.next.inj (goes.symm.trans runs)
    obtain ⟨dest, accumulator, right, -⟩ := s.alu2_did op n rd v len
    exact ⟨accumulator.trans dest.symm, right⟩
  · exact nomatch refused.symm.trans runs

/-- A rotate or shift leaves the result in A, and B as it was unless B is the destination (R191). -/
theorem Alu1Did.leaves {rd : Reg} {x : Byte} {len : Addr} {s t : State} (did : Alu1Did rd x len s t) :
    t.reg .a = t.reg rd ∧ (rd ≠ .b → t.reg .b = s.reg .b) := by
  obtain ⟨dest, accumulator, others, -⟩ := did
  exact ⟨accumulator.trans dest.symm, fun hb => others .b (by simp [hb.symm])⟩

theorem alu1Instr_leaves {op : Byte → Byte × Bool} {rd : Reg} {s t : State} (runs : alu1Instr op rd s = .next t) :
    t.reg .a = t.reg rd ∧ (rd ≠ .b → t.reg .b = s.reg .b) := by
  obtain ⟨_, _, goes, -, did, -⟩ := alu1Instr_did (Moves := fun _ => True) trivial
  obtain rfl := Host.Outcome.next.inj (goes.symm.trans runs)
  exact did.leaves

theorem alu1iInstr_leaves {op : Byte → Byte × Bool} {v : Byte} {rd : Reg} {s t : State}
    (runs : alu1iInstr op v rd s = .next t) : t.reg .a = t.reg rd ∧ (rd ≠ .b → t.reg .b = s.reg .b) := by
  obtain ⟨_, _, goes, -, did, -⟩ := alu1iInstr_did (Moves := fun _ => True) trivial
  obtain rfl := Host.Outcome.next.inj (goes.symm.trans runs)
  exact did.leaves

/-! ### The instructions that write no register, or one -/

/-- A frame that does not name the registers keeps them all. -/
theorem KeptBut.keeps_regs {ps : List Part} {s u t : State} (frame : KeptBut ps s u)
    (next : (.next u : Result) = .next t) (unnamed : .regs ∉ ps := by decide) : RegsKeptBut [] s t := by
  obtain rfl := Host.Outcome.next.inj next
  exact fun r _ => frame .regs unnamed r

/-- Settles O54: one case for each routing, for one register written, and for each frame without the registers. -/
theorem aluInstructionsOverwriteAAndB : Obligations.AluInstructionsOverwriteAAndB := by
  intro i s t runs
  cases i
  case adi | sbi | xri | nandi | add | sub | xor | nand | inc | dcr => exact alu2Instr_leaves runs
  case ror | rol | sfr | sfl => exact alu1Instr_leaves runs
  case rri | rli | sli | sri => exact alu1iInstr_leaves runs
  case ldi | load | in_ | move =>
    obtain rfl := Host.Outcome.next.inj runs
    exact s.setReg_regsKeptBut _ _
  case pull r =>
    obtain rfl := Host.Outcome.next.inj runs
    exact s.pop16.setReg_regsKeptBut r _
  case jmp x => exact (s.setPc_keptBut _).keeps_regs runs
  case jc | jnc | jz | jnz | jm | jp => exact (s.jumpIf_keptBut _ _).keeps_regs runs
  case call => exact ((s.push16_keptBut _).trans (State.setPc_keptBut _ _)).keeps_regs runs
  case rts => exact (s.pop16_keptBut.trans (State.setPc_keptBut _ _)).keeps_regs runs
  case phi | push => exact ((s.pushByte_keptBut _).trans (State.advance_keptBut _ 2)).keeps_regs runs
  case hlt => exact (s.stopClock_keptBut.trans (State.advance_keptBut _ 1)).keeps_regs runs
  case nop => exact (s.advance_keptBut 1).keeps_regs runs
  case sgr => exact (s.sgrPulse_keptBut.trans (State.advance_keptBut _ 1)).keeps_regs runs
  case store r x =>
    obtain ⟨-, writes⟩ | ⟨-, raises⟩ := execStore_cases r x s
    · have frame := (s.poke_keptBut (s.address x) (s.reg r)).trans (State.latchWrite_keptBut _ (s.address x) (s.reg r))
      exact (frame.trans (State.advance_keptBut _ 4)).keeps_regs (writes.symm.trans runs)
    · exact nomatch raises.symm.trans runs
  case out r p =>
    have written := s.setOutp_keptBut p (s.reg r)
    obtain ⟨-, pulses⟩ | ⟨-, quiet⟩ := exec_out_cases r p s
    · have frame := written.trans (State.ackPulse_keptBut _)
      exact (frame.trans (State.advance_keptBut _ 3)).keeps_regs (pulses.symm.trans runs)
    · exact (written.trans (State.advance_keptBut _ 3)).keeps_regs (quiet.symm.trans runs)

end Sys2Proof.Machine
end

section
/-! PROOFS. The round trip between instructions and bytes (30_encoding.md R82, R90): every row answers the instruction
that its bytes encode, and the bytes that decode are those of the answer. -/

namespace Sys2Proof.Machine

/-! ### Encodings -/

/-- Each encoding is as long as its format, which its first byte selects. -/
theorem encodedShape (i : Instr) : Laws.EncodedShape.Statement i := by
  cases i <;> exact ⟨rfl, rfl⟩

theorem exists_encode_eq_cons (i : Instr) : ∃ op used, encode i = op :: used :=
  List.ne_nil_iff_exists_cons.1 (by cases i <;> exact nofun)

/-- Bytes that decode begin with the encoding of what they decode to. -/
theorem begins_with_encode_of_decode {b0 b1 b2 b3 : Byte} {i : Instr} (decodes : decode b0 b1 b2 b3 = .ok i) :
    encode i <+: [b0, b1, b2, b3] := by
  obtain ⟨-, fails⟩ | ⟨f, -, accounted⟩ := decode_cases b0 b1 b2 b3
  · exact nomatch fails.symm.trans decodes
  · rwa [decodes] at accounted

/-- The format of an instruction is the one that byte 0 of its bytes selects. -/
theorem formatOf_of_begins_with_encode {b : Byte} {bs : List Byte} {i : Instr} (first : encode i <+: b :: bs) :
    formatOf b = some i.format := by
  obtain ⟨-, selects⟩ := encodedShape i
  obtain ⟨op, used, encodes⟩ := exists_encode_eq_cons i
  obtain ⟨rest, bytes⟩ := first
  rw [encodes] at bytes selects
  obtain rfl : op = b := List.head_eq_of_cons_eq bytes
  exact selects

/-! ### The obligations -/

/-- Settles O1: format by format, each register and port code passes its check. -/
theorem decodeOfEncode : Obligations.DecodeOfEncode := by
  intro i rest
  cases i
  case rts | hlt | nop | sgr | phi | jmp | jc | jnc | jz | jnz | jm | jp | call => rfl
  case push r | pull r | dcr r | inc r | ror r | rol r | sfr r | sfl r => exact withReg_code 1 r _
  case ldi v r | adi v r | sbi v r | rri v r | rli v r | sli v r | sri v r | xri v r | nandi v r =>
    exact withReg_code 2 r _
  case sub r1 r2 | add r1 r2 | xor r1 r2 | nand r1 r2 | move r1 r2 =>
    exact (withReg_code 1 r1 _).trans (withReg_code 2 r2 _)
  case load x r => exact (load_encodedAs x.a1 x.a2 r).2 rest
  case store r x => exact (store_encodedAs r x.a1 x.a2).2 rest
  case in_ p r => exact (in_encodedAs p r).2 rest
  case out r p => exact (out_encodedAs r p).2 rest

/-- Settles O2: the bytes begin with the encoding, whose length and format are its instruction's. -/
theorem encodeOfDecode : Obligations.EncodeOfDecode := by
  intro b0 b1 b2 b3 i decodes
  have first := begins_with_encode_of_decode decodes
  obtain ⟨length, -⟩ := encodedShape i
  refine ⟨?bytes, length, ?format⟩
  case bytes =>
    obtain ⟨rest, bytes⟩ := first
    rw [← bytes, List.take_left' length]
  case format => rw [formatOf_of_begins_with_encode first]; rfl

end Sys2Proof.Machine
end

section
/-! PROOFS. Which bytes decode at all (30_encoding.md R93, R94): those that pass the check written from the format table,
and which bytes are no opcode. -/

namespace Sys2Proof.Machine

/-! ### The check on operand bytes -/

/-- Operand bytes that pass the check are each allowed where they stand. -/
theorem allows_of_operandsAllowed {kinds : List OperandByte} {bs : List Byte} {k : Nat} {kind : OperandByte} {b : Byte}
    (passes : operandsAllowed kinds bs = true) (wanted : kinds[k]? = some kind) (found : bs[k]? = some b) :
    kind.allows b = true := by
  induction kinds generalizing bs k with
  | nil => simp at wanted
  | cons first kinds ih =>
    cases bs with
    | nil => simp at found
    | cons c bs =>
      obtain ⟨here, later⟩ : first.allows c = true ∧ operandsAllowed kinds bs = true := by
        simpa [operandsAllowed] using passes
      cases k with
      | zero =>
        obtain rfl : first = kind := by simpa using wanted
        obtain rfl : c = b := by simpa using found
        exact here
      | succ k => exact ih later (by simpa using wanted) (by simpa using found)

/-- A byte is allowed as a register exactly up to 0x07. -/
theorem allows_reg_iff (b : Byte) : OperandByte.reg.allows b = true ↔ b.toNat ≤ 7 := decide_eq_true_iff

theorem allows_port_iff (b : Byte) : OperandByte.port.allows b = true ↔ b = 0x01 ∨ b = 0x02 := decide_eq_true_iff

@[simp] theorem allows_code (r : Reg) : OperandByte.reg.allows r.code = true := (allows_reg_iff _).2 (code_le_seven r)

@[simp] theorem allows_port_code (p : Port) : OperandByte.port.allows p.code = true := by cases p <;> rfl

/-- Rejected operand bytes do not pass the check. -/
theorem operandsAllowed_of_rejected {f : Format} {bs : List Byte} {e : DecodeError} (rejected : RejectedAs f bs e) :
    operandsAllowed f.operandBytes bs = false := by
  refine Bool.eq_false_iff.2 fun passes => ?_
  cases e with
  | invalidOpcode b => exact rejected
  | invalidRegister b pos =>
    obtain ⟨k, -, wanted, found, high⟩ := rejected
    have low := (allows_reg_iff b).1 (allows_of_operandsAllowed passes wanted found)
    omega
  | invalidPort b =>
    obtain ⟨k, wanted, found, ne1, ne2⟩ := rejected
    exact ((allows_port_iff b).1 (allows_of_operandsAllowed passes wanted found)).elim ne1 ne2

@[simp] theorem allows_value (b : Byte) : OperandByte.value.allows b = true := rfl

@[simp] theorem allows_addr (b : Byte) : OperandByte.addr.allows b = true := rfl

/-- An instruction writes each of its operands by a byte that its format allows there. -/
theorem operandsAllowed_encode_tail (i : Instr) (rest : List Byte) :
    operandsAllowed i.format.operandBytes ((encode i).tail ++ rest) = true := by
  cases i <;> simp [encode, Instr.format, Format.operandBytes, operandsAllowed]

/-- The bytes of an instruction pass the check, whatever follows them. -/
theorem wellFormedBytes_encode_append (i : Instr) (rest : List Byte) : wellFormedBytes (encode i ++ rest) = true := by
  have operands := operandsAllowed_encode_tail i rest
  obtain ⟨op, used, encodes⟩ := exists_encode_eq_cons i
  have format : formatOf op = some i.format := formatOf_of_begins_with_encode ⟨[], by rw [encodes, List.append_nil]⟩
  rw [encodes] at operands ⊢
  simpa [wellFormedBytes, format] using operands

/-! ### The obligations -/

/-- Settles O3: an instruction's own bytes pass the check, and bytes that are no instruction are rejected by it too. -/
theorem decodeAcceptsWellFormedBytes : Obligations.DecodeAcceptsWellFormedBytes := by
  refine fun b0 b1 b2 b3 => ⟨fun ⟨i, decodes⟩ => ?wellFormed, fun passes => ?decodes⟩
  case wellFormed =>
    obtain ⟨rest, bytes⟩ := begins_with_encode_of_decode decodes
    exact bytes ▸ wellFormedBytes_encode_append i rest
  case decodes =>
    obtain ⟨undefined, -⟩ | ⟨f, format, accounted⟩ := decode_cases b0 b1 b2 b3
    · simp [wellFormedBytes, undefined] at passes
    · cases answer : decode b0 b1 b2 b3 with
      | ok i => exact ⟨i, rfl⟩
      | error e =>
        rw [answer] at accounted
        simp [wellFormedBytes, format, operandsAllowed_of_rejected accounted] at passes

/-- Decoding answers InvalidOpcode exactly on a byte that is not in the format table. -/
theorem decode_eq_invalidOpcode_iff (b0 b1 b2 b3 : Byte) :
    decode b0 b1 b2 b3 = .error (.invalidOpcode b0) ↔ formatOf b0 = none := by
  obtain ⟨undefined, invalid⟩ | ⟨f, format, accounted⟩ := decode_cases b0 b1 b2 b3
  · exact iff_of_true invalid undefined
  · refine iff_of_false (fun invalid => ?_) (by simp [format])
    rwa [invalid] at accounted

/-- Settles O4: byte 0 alone decides, so the ranges are those of the bytes outside the format
table: a finite check of the 256 bytes. -/
theorem undefinedOpcodesAreTheListedOnes : Obligations.UndefinedOpcodesAreTheListedOnes := by
  intro b0
  simp only [decode_eq_invalidOpcode_iff, forall_const]
  revert b0
  decide

end Sys2Proof.Machine
end

section
/-! PROOFS. Relations between states that every operation respects: each step respects them too. Noninterference is such
a relation between two runs; an invariant is one on the diagonal, between a state and itself. -/

namespace Sys2Proof.Machine

/-! ### The operations -/

/-- All that instructions read, apart from the ports and the VRAM, which the two pulses alone read: SK through its top
only. -/
structure SameReads (s t : State) : Prop where
  cfg : t.cfg = s.cfg
  regs : t.regs = s.regs
  zf : t.zf = s.zf
  cf : t.cf = s.cf
  sf : t.sf = s.sf
  pc : t.pc = s.pc
  top : t.top = s.top
  halted : t.halted = s.halted
  mem : t.mem = s.mem
  draws : t.draws = s.draws

/-- States so related read alike, and every operation, with the same operands, leads to states so related. The write of
a byte is one of RAM. -/
structure OpsRespect (R : State → State → Prop) : Prop where
  reads : ∀ {s t}, R s t → SameReads s t
  setReg : ∀ {s t} r v, R s t → R (s.setReg r v) (t.setReg r v)
  setPc : ∀ {s t} a, R s t → R (s.setPc a) (t.setPc a)
  setFlags : ∀ {s t} v c, R s t → R (s.setFlags v c) (t.setFlags v c)
  push16 : ∀ {s t} e, R s t → R (s.push16 e) (t.push16 e)
  pop16 : ∀ {s t}, R s t → R s.pop16 t.pop16
  poke : ∀ {s t} a v, 0x8000 ≤ a.toNat → R s t → R (s.poke a v) (t.poke a v)
  latchOpcode : ∀ {s t} v, R s t → R (s.latchOpcode v) (t.latchOpcode v)
  latchRead : ∀ {s t} a v, R s t → R (s.latchRead a v) (t.latchRead a v)
  latchWrite : ∀ {s t} a v, R s t → R (s.latchWrite a v) (t.latchWrite a v)
  setOutp : ∀ {s t} p v, R s t → R (s.setOutp p v) (t.setOutp p v)
  ackPulse : ∀ {s t}, R s t → R s.ackPulse t.ackPulse
  sgrPulse : ∀ {s t}, R s t → R s.sgrPulse t.sgrPulse
  stopClock : ∀ {s t}, R s t → R s.stopClock t.stopClock
  countDraws : ∀ {s t} n, R s t → R (s.countDraws n) (t.countDraws n)

namespace SameReads

variable {s t : State} (same : SameReads s t)
include same

theorem reg (r : Reg) : t.reg r = s.reg r := by rw [State.reg, same.regs, State.reg]

theorem memRead (a : Addr) : t.memRead a = s.memRead a := by rw [State.memRead, same.mem, State.memRead]

theorem address (x : AddrOperand) : t.address x = s.address x := by rw [State.address, same.cfg, State.address]

theorem xorOp : t.xorOp = s.xorOp := by rw [State.xorOp, same.cfg, same.cf, same.draws, State.xorOp]

theorem nandOp : t.nandOp = s.nandOp := by rw [State.nandOp, same.cfg, same.cf, same.draws, State.nandOp]

theorem fetch8 (k : Nat) : t.fetch8 k = s.fetch8 k := by rw [State.fetch8, same.memRead, same.pc, State.fetch8]

theorem fetchDecode : t.fetchDecode = s.fetchDecode := by simp only [State.fetchDecode, same.fetch8]

end SameReads

/-! ### Outcomes -/

theorem OutcomesAlike.next {R : State → State → Prop} {s t : State} (h : R s t) :
    OutcomesAlike R (.next s) (.next t) := .inl ⟨s, t, rfl, rfl, h⟩

theorem OutcomesAlike.fault {R : State → State → Prop} (f : Fault) : OutcomesAlike R (.fault f) (.fault f) :=
  .inr (.inl ⟨f, rfl, rfl⟩)

theorem OutcomesAlike.refused {R : State → State → Prop} (f : Refusal) : OutcomesAlike R (.refused f) (.refused f) :=
  .inr (.inr ⟨f, rfl, rfl⟩)

/-! ### Instructions and steps -/

namespace OpsRespect

variable {R : State → State → Prop} (ops : OpsRespect R) {s t : State} (h : R s t)
include ops h

theorem advance (n : Nat) : R (s.advance n) (t.advance n) := by
  rw [State.advance, State.advance, (ops.reads h).pc]
  exact ops.setPc _ h

theorem jumpIf (c : Bool) (x : AddrOperand) : R (s.jumpIf c x) (t.jumpIf c x) := by
  cases c with
  | false => exact ops.advance h 3
  | true =>
    simp only [State.jumpIf, (ops.reads h).address]
    exact ops.setPc _ h

theorem pushByte (v : Byte) : R (s.pushByte v) (t.pushByte v) := by
  rw [State.pushByte, State.pushByte, State.dataEntry, State.dataEntry, (ops.reads h).draws]
  exact ops.countDraws 1 (ops.push16 _ h)

theorem latchFetch (n : Nat) : R (s.latchFetch n) (t.latchFetch n) := by
  simp only [State.latchFetch, (ops.reads h).fetch8, (ops.reads h).pc]
  exact ops.latchRead _ _ (ops.latchOpcode _ h)

theorem alu2 (op : Byte → Byte → Byte × Bool) (rd : Reg) (v : Byte) : R (s.alu2 op rd v) (t.alu2 op rd v) := by
  have right := ops.setReg .b v h
  have left := ops.setReg .a ((s.setReg .b v).reg rd) right
  simp only [State.alu2, (ops.reads right).reg, (ops.reads left).reg]
  exact ops.setReg _ _ (ops.setFlags _ _ (ops.setReg _ _ left))

theorem alu1 (op : Byte → Byte × Bool) (rd : Reg) : R (s.alu1 op rd) (t.alu1 op rd) := by
  have same := ops.reads h
  have left := ops.setReg .a (s.reg rd) h
  simp only [State.alu1, same.reg, same.cfg, same.cf, same.draws, (ops.reads left).reg, State.reg_setReg_self]
  exact ops.setReg _ _ (ops.setFlags _ _ (ops.setReg _ _ left))

theorem alu1i (op : Byte → Byte × Bool) (v : Byte) (rd : Reg) : R (s.alu1i op v rd) (t.alu1i op v rd) := by
  simp only [State.alu1i, State.reg_setReg_self]
  exact ops.setReg _ _ (ops.setReg _ _ (ops.setReg _ _ h))

theorem alu2Instr_alike (op : Byte → Byte → Byte × Bool) (n : Nat) (rd : Reg) (v : Byte) (rightIsB : Bool) (len : Nat) :
    OutcomesAlike R (alu2Instr op n rd v rightIsB len s) (alu2Instr op n rd v rightIsB len t) := by
  simp only [alu2Instr, (ops.reads h).cfg]
  split
  · exact .refused _
  · exact .next (ops.advance (ops.countDraws n (ops.alu2 h op rd v)) len)

theorem alu1Instr_alike (op : Byte → Byte × Bool) (rd : Reg) :
    OutcomesAlike R (alu1Instr op rd s) (alu1Instr op rd t) := by
  simp only [alu1Instr, (ops.reads h).cfg]
  exact .next (ops.advance (ops.countDraws _ (ops.alu1 h op rd)) 2)

theorem alu1iInstr_alike (op : Byte → Byte × Bool) (v : Byte) (rd : Reg) :
    OutcomesAlike R (alu1iInstr op v rd s) (alu1iInstr op v rd t) :=
  .next (ops.advance (ops.alu1i h op v rd) 3)

theorem execStore_alike (r : Reg) (x : AddrOperand) : OutcomesAlike R (execStore r x s) (execStore r x t) := by
  have same := ops.reads h
  simp only [execStore, State.memWrite?, same.address, same.reg, same.pc]
  by_cases ram : inRAM (s.address x) = true
  · simp only [ram, if_true]
    exact .next (ops.advance (ops.latchWrite _ _ (ops.poke _ _ ((inRAM_iff _).1 ram) h)) 4)
  · simp only [ram]
    exact .fault _

theorem execOut_alike (r : Reg) (p : Port) : OutcomesAlike R (execOut r p s) (execOut r p t) := by
  have written := ops.setOutp p (s.reg r) h
  simp only [execOut, (ops.reads h).reg, (ops.reads h).cfg]
  split
  · exact .next (ops.advance (ops.ackPulse written) 3)
  · exact .next (ops.advance written 3)

/-- Every instruction respects what its operations respect. -/
theorem exec_alike (i : Instr) : OutcomesAlike R (exec i s) (exec i t) := by
  have same := ops.reads h
  cases i
  case ldi v r => exact .next (ops.advance (ops.setReg r v h) 3)
  case adi | inc => exact ops.alu2Instr_alike h ..
  case sbi | dcr =>
    simp only [exec, execSbi, execDcr, same.cfg]
    exact ops.alu2Instr_alike h ..
  case xri | nandi =>
    simp only [exec, execXri, execNandi, same.cfg, same.xorOp, same.nandOp]
    exact ops.alu2Instr_alike h ..
  case add | sub | xor | nand =>
    simp only [exec, execAdd, execSub, execXor, execNand, same.cfg, same.reg, same.xorOp, same.nandOp]
    exact ops.alu2Instr_alike h ..
  case ror | rol | sfr | sfl =>
    simp only [exec, execRor, execRol, execSfr, execSfl, same.cfg, same.cf]
    exact ops.alu1Instr_alike h ..
  case rri | rli | sli | sri =>
    simp only [exec, execRri, execRli, execSli, execSri, same.cfg, same.cf]
    exact ops.alu1iInstr_alike h ..
  case jmp x =>
    simp only [exec, execJmp, same.address]
    exact .next (ops.setPc _ h)
  case jc | jnc | jz | jnz | jm | jp =>
    simp only [exec, execJc, execJnc, execJz, execJnz, execJm, execJp, same.cf, same.zf, same.sf]
    exact .next (ops.jumpIf h ..)
  case call x =>
    simp only [exec, execCall, same.pc, same.address]
    exact .next (ops.setPc _ (ops.push16 _ h))
  case rts =>
    simp only [exec, execRts, same.top]
    exact .next (ops.setPc _ (ops.pop16 h))
  case phi v => exact .next (ops.advance (ops.pushByte h v) 2)
  case push r =>
    simp only [exec, execPush, same.reg]
    exact .next (ops.advance (ops.pushByte h _) 2)
  case pull r =>
    simp only [exec, execPull, same.top]
    exact .next (ops.advance (ops.setReg _ _ (ops.pop16 h)) 2)
  case move r1 r2 =>
    simp only [exec, execMove, same.cfg, same.reg]
    exact .next (ops.advance (ops.setReg _ _ h) 3)
  case load x r =>
    simp only [exec, execLoad, same.address, same.memRead]
    exact .next (ops.advance (ops.latchRead _ _ (ops.setReg _ _ h)) 4)
  case store r x => exact ops.execStore_alike h r x
  case hlt => exact .next (ops.advance (ops.stopClock h) 1)
  case nop => exact .next (ops.advance h 1)
  case in_ p r =>
    simp only [exec, execIn, State.inp, same.draws]
    exact .next (ops.advance (ops.countDraws 1 (ops.setReg _ _ h)) 3)
  case out r p => exact ops.execOut_alike h r p
  case sgr => exact .next (ops.advance (ops.sgrPulse h) 1)

/-- Every step respects what the operations respect. -/
theorem step_alike : OutcomesAlike R (step s) (step t) := by
  have same := ops.reads h
  simp only [step, same.halted, same.fetchDecode, same.pc]
  split
  · exact .next h
  · split
    · exact ops.exec_alike (ops.latchFetch h _) _
    · exact .fault _

end OpsRespect

end Sys2Proof.Machine
end

section
/-! PROOFS. The obligations on every step of the whole machine, each from a relation that every operation respects. -/

namespace Sys2Proof.Machine

/-! ### Invariants -/

/-- A state that meets `P`, related to itself. -/
def Diagonal (P : State → Prop) (s t : State) : Prop := t = s ∧ P s

theorem Diagonal.map {P : State → Prop} (f : State → State) (keeps : ∀ s, P s → P (f s)) {s t : State}
    (h : Diagonal P s t) : Diagonal P (f s) (f t) :=
  ⟨congrArg f h.1, keeps s h.2⟩

theorem Diagonal.reads {P : State → Prop} {s t : State} (h : Diagonal P s t) : SameReads s t := by
  obtain ⟨rfl, -⟩ := h
  exact ⟨rfl, rfl, rfl, rfl, rfl, rfl, rfl, rfl, rfl, rfl⟩

/-- What every operation keeps, every step keeps. -/
theorem step_keeps {P : State → Prop} (ops : OpsRespect (Diagonal P)) {s t : State} (hs : P s)
    (steps : step s = .next t) : P t := by
  obtain ⟨t', _, goes, -, -, ht'⟩ | ⟨_, raises, -⟩ | ⟨_, refuses, -⟩ := ops.step_alike (t := s) ⟨rfl, hs⟩
  · exact Host.Outcome.next.inj (goes.symm.trans steps) ▸ ht'
  · exact nomatch raises.symm.trans steps
  · exact nomatch refuses.symm.trans steps

/-- The operations keep the invariant: a write keeps the canonical form, and each pulse ends with its signal low. -/
theorem opsRespect_inv : OpsRespect (Diagonal State.Inv) where
  reads := Diagonal.reads
  setReg r v := .map (·.setReg r v) fun _ => id
  setPc a := .map (·.setPc a) fun _ => id
  setFlags v c := .map (·.setFlags v c) fun _ => id
  push16 e := .map (·.push16 e) fun _ => id
  pop16 := .map (·.pop16) fun _ => id
  poke a v _ := .map (·.poke a v) fun s ⟨wf, lines⟩ => ⟨s.poke_wf a v wf, lines⟩
  latchOpcode v := .map (·.latchOpcode v) fun _ => id
  latchRead a v := .map (·.latchRead a v) fun _ => id
  latchWrite a v := .map (·.latchWrite a v) fun _ => id
  setOutp p v := .map (·.setOutp p v) fun _ inv => by simpa [State.Inv] using inv
  ackPulse := .map (·.ackPulse) fun _ ⟨wf, _, sgr⟩ => ⟨by simpa using wf, rfl, by simpa using sgr⟩
  sgrPulse := .map (·.sgrPulse) fun _ ⟨wf, ack, _⟩ => ⟨wf, ack, rfl⟩
  stopClock := .map (·.stopClock) fun _ => id
  countDraws n := .map (·.countDraws n) fun _ => id

/-- Settles O49: every operation keeps the invariant. -/
theorem stepKeepsTheInvariant : Obligations.StepKeepsTheInvariant :=
  fun _ _ inv steps => step_keeps opsRespect_inv inv steps

/-- What no step takes away from `s`: its parameters, its count of draws and its ROM. -/
def HasRomAndParametersOf (s t : State) : Prop :=
  t.cfg = s.cfg ∧ s.draws ≤ t.draws ∧ ∀ a : Addr, a.toNat < 0x8000 → t.memRead a = s.memRead a

/-- The operations keep them: the only write of a byte is one of RAM. -/
theorem opsRespect_hasRomAndParametersOf (s₀ : State) : OpsRespect (Diagonal (HasRomAndParametersOf s₀)) where
  reads := Diagonal.reads
  setReg r v := .map (·.setReg r v) fun _ => id
  setPc a := .map (·.setPc a) fun _ => id
  setFlags v c := .map (·.setFlags v c) fun _ => id
  push16 e := .map (·.push16 e) fun _ => id
  pop16 := .map (·.pop16) fun _ => id
  poke a v ram := .map (·.poke a v) fun s ⟨cfg, draws, rom⟩ => ⟨cfg, draws, fun a' low =>
    (s.memRead_poke_ne v fun same => (same ▸ low).not_ge ram).trans (rom a' low)⟩
  latchOpcode v := .map (·.latchOpcode v) fun _ => id
  latchRead a v := .map (·.latchRead a v) fun _ => id
  latchWrite a v := .map (·.latchWrite a v) fun _ => id
  setOutp p v := .map (·.setOutp p v) fun _ has => by simpa [HasRomAndParametersOf] using has
  ackPulse := .map (·.ackPulse) fun _ has => by simpa [HasRomAndParametersOf] using has
  sgrPulse := .map (·.sgrPulse) fun _ => id
  stopClock := .map (·.stopClock) fun _ => id
  countDraws n := .map (·.countDraws n) fun _ ⟨cfg, draws, rom⟩ => ⟨cfg, draws.trans (Nat.le_add_right _ n), rom⟩

/-- Settles O51: every operation keeps the ROM and the parameters that the step began with. -/
theorem romAndParametersNeverChange : Obligations.RomAndParametersNeverChange :=
  fun s _ steps => step_keeps (opsRespect_hasRomAndParametersOf s) ⟨rfl, le_rfl, fun _ _ => rfl⟩ steps

/-! ### Noninterference -/

/-- What the acknowledge pulse does, as one update (60_exceptions.md R262). -/
theorem State.ackPulse_eq (s : State) : s.ackPulse = { s with
    v1 := if s.outp2 = 0xff then s.outp1 else s.v1
    v2 := if s.outp2 = 0xfe then s.outp1 else s.v2
    ackLine := false } := by
  rw [← State.ackPulse_v1, ← State.ackPulse_v2]
  simp only [State.ackPulse, State.vramCapture]
  split
  · rfl
  · split <;> rfl

/-- The state with other values in MAR, IDR, ODR and IR. -/
def State.withBusRegs (s : State) (mar : Addr) (idr odr ir : Byte) : State :=
  { s with mar := mar, idr := idr, odr := odr, ir := ir }

theorem sameButBusRegs_iff {s t : State} : SameButBusRegs s t ↔ ∃ mar idr odr ir, t = s.withBusRegs mar idr odr ir := by
  refine ⟨fun h => ⟨_, _, _, _, h⟩, ?_⟩
  rintro ⟨mar, idr, odr, ir, rfl⟩
  rfl

/-- An operation that does not look at the four registers, and does not write them. -/
theorem SameButBusRegs.map (f : State → State)
    (blind : ∀ s mar idr odr ir, f (s.withBusRegs mar idr odr ir) = (f s).withBusRegs mar idr odr ir) {s t : State}
    (h : SameButBusRegs s t) : SameButBusRegs (f s) (f t) := by
  obtain ⟨mar, idr, odr, ir, rfl⟩ := sameButBusRegs_iff.1 h
  exact sameButBusRegs_iff.2 ⟨mar, idr, odr, ir, blind s mar idr odr ir⟩

/-- No operation looks at MAR, IDR, ODR or IR; the latches write them. -/
theorem opsRespect_sameButBusRegs : OpsRespect SameButBusRegs where
  reads h := by
    obtain ⟨mar, idr, odr, ir, rfl⟩ := sameButBusRegs_iff.1 h
    exact ⟨rfl, rfl, rfl, rfl, rfl, rfl, rfl, rfl, rfl, rfl⟩
  setReg r v := .map (·.setReg r v) fun _ _ _ _ _ => rfl
  setPc a := .map (·.setPc a) fun _ _ _ _ _ => rfl
  setFlags v c := .map (·.setFlags v c) fun _ _ _ _ _ => rfl
  push16 e := .map (·.push16 e) fun _ _ _ _ _ => rfl
  pop16 := .map (·.pop16) fun _ _ _ _ _ => rfl
  poke a v _ := .map (·.poke a v) fun _ _ _ _ _ => rfl
  latchOpcode v h := by
    obtain ⟨mar, idr, odr, ir, rfl⟩ := sameButBusRegs_iff.1 h
    exact sameButBusRegs_iff.2 ⟨mar, idr, odr, v, rfl⟩
  latchRead a v h := by
    obtain ⟨mar, idr, odr, ir, rfl⟩ := sameButBusRegs_iff.1 h
    exact sameButBusRegs_iff.2 ⟨a, idr, v, ir, rfl⟩
  latchWrite a v h := by
    obtain ⟨mar, idr, odr, ir, rfl⟩ := sameButBusRegs_iff.1 h
    exact sameButBusRegs_iff.2 ⟨a, v, odr, ir, rfl⟩
  setOutp p v := .map (·.setOutp p v) fun _ _ _ _ _ => by cases p <;> rfl
  ackPulse := .map (·.ackPulse) fun _ _ _ _ _ => by simp only [State.ackPulse_eq]; rfl
  sgrPulse := .map (·.sgrPulse) fun _ _ _ _ _ => rfl
  stopClock := .map (·.stopClock) fun _ _ _ _ _ => rfl
  countDraws n := .map (·.countDraws n) fun _ _ _ _ _ => rfl

/-- Settles O56: every operation respects the relation. -/
theorem busRegistersAreUnobservable : Obligations.BusRegistersAreUnobservable :=
  fun _ _ same => opsRespect_sameButBusRegs.step_alike same

/-- The state with another stack. -/
def State.withStack (s : State) (sp : Byte) (sk : Vector Entry 256) : State := { s with sp := sp, sk := sk }

theorem stackTurned_iff {k : Byte} {s t : State} : StackTurned k s t ↔
    t.sp = s.sp + k ∧ (∀ i, t.entry (i + k) = s.entry i) ∧ ∃ sp sk, t = s.withStack sp sk := by
  refine ⟨fun ⟨sp, ring, rest⟩ => ⟨sp, ring, _, _, rest⟩, ?_⟩
  rintro ⟨sp, ring, _, _, rfl⟩
  exact ⟨sp, ring, rfl⟩

/-- An operation that does not look at the stack, and does not change it. -/
theorem StackTurned.map (f : State → State)
    (blind : ∀ s sp sk, f (s.withStack sp sk) = (f s).withStack sp sk) {k : Byte} {s t : State}
    (h : StackTurned k s t) : StackTurned k (f s) (f t) := by
  have keeps (u : State) : f u = (f u).withStack u.sp u.sk := blind u u.sp u.sk
  have keeps_entry (u : State) (i : Byte) : (f u).entry i = u.entry i := by rw [keeps u]; rfl
  obtain ⟨sp, ring, sp', sk', rest⟩ := stackTurned_iff.1 h
  refine stackTurned_iff.2 ⟨?pointer, fun i => ?entries, sp', sk', ?rest⟩
  case pointer => rw [keeps s, keeps t]; exact sp
  case entries => rw [keeps_entry, keeps_entry]; exact ring i
  case rest => rw [rest]; exact blind s sp' sk'

/-- A push goes to the entry after the top, wherever in the ring that is. -/
theorem StackTurned.push16 {k : Byte} {s t : State} (e : Entry) (h : StackTurned k s t) :
    StackTurned k (s.push16 e) (t.push16 e) := by
  obtain ⟨sp, ring, sp', sk', rest⟩ := stackTurned_iff.1 h
  have top : t.sp + 1 = s.sp + 1 + k := by bv_omega
  refine stackTurned_iff.2 ⟨top, fun i => ?entries, _, _, by rw [rest]; rfl⟩
  case entries => simp only [State.entry_push16, ring, top, BitVec.add_left_inj]

theorem StackTurned.pop16 {k : Byte} {s t : State} (h : StackTurned k s t) : StackTurned k s.pop16 t.pop16 := by
  obtain ⟨sp, ring, sp', sk', rest⟩ := stackTurned_iff.1 h
  refine stackTurned_iff.2 ⟨?pointer, ring, _, _, by rw [rest]; rfl⟩
  case pointer =>
    show t.sp - 1 = s.sp - 1 + k
    bv_omega

/-- Only the stack primitives look at SP, and they look at SK from there. -/
theorem opsRespect_stackTurned (k : Byte) : OpsRespect (StackTurned k) where
  reads {s t} h := by
    obtain ⟨sp, ring, sp', sk', rest⟩ := stackTurned_iff.1 h
    have top : t.top = s.top := by rw [State.top, sp, ring, State.top]
    subst rest
    exact ⟨rfl, rfl, rfl, rfl, rfl, rfl, top, rfl, rfl, rfl⟩
  setReg r v := .map (·.setReg r v) fun _ _ _ => rfl
  setPc a := .map (·.setPc a) fun _ _ _ => rfl
  setFlags v c := .map (·.setFlags v c) fun _ _ _ => rfl
  push16 e := .push16 e
  pop16 := .pop16
  poke a v _ := .map (·.poke a v) fun _ _ _ => rfl
  latchOpcode v := .map (·.latchOpcode v) fun _ _ _ => rfl
  latchRead a v := .map (·.latchRead a v) fun _ _ _ => rfl
  latchWrite a v := .map (·.latchWrite a v) fun _ _ _ => rfl
  setOutp p v := .map (·.setOutp p v) fun _ _ _ => by cases p <;> rfl
  ackPulse := .map (·.ackPulse) fun _ _ _ => by simp only [State.ackPulse_eq]; rfl
  sgrPulse := .map (·.sgrPulse) fun _ _ _ => rfl
  stopClock := .map (·.stopClock) fun _ _ _ => rfl
  countDraws n := .map (·.countDraws n) fun _ _ _ => rfl

/-- Settles O57: every operation respects the turn. -/
theorem stackPointerIsUnobservable : Obligations.StackPointerIsUnobservable :=
  fun k _ _ turned => (opsRespect_stackTurned k).step_alike turned

end Sys2Proof.Machine
end

section
/-! PROOFS. Which parts of the state each instruction may change, once for all of them. -/

namespace Sys2Proof.Machine

/-- The parts an instruction may change, beside the `pc`. -/
def partsTouched : Instr → List Part
  | .ldi _ _ | .move _ _ | .rri _ _ | .rli _ _ | .sli _ _ | .sri _ _ => [.regs]
  | .adi _ _ | .sbi _ _ | .sub _ _ | .add _ _ | .xor _ _ | .nand _ _ | .xri _ _ | .nandi _ _ | .dcr _ | .inc _
  | .ror _ | .rol _ | .sfr _ | .sfl _ => [.regs, .flags, .draws]
  | .jmp _ | .jc _ | .jnc _ | .jz _ | .jnz _ | .jm _ | .jp _ | .nop => []
  | .call _ | .rts => [.stack]
  | .phi _ | .push _ => [.stack, .draws]
  | .pull _ => [.stack, .regs]
  | .load _ _ => [.regs, .busRegs]
  | .store _ _ => [.memory, .busRegs]
  | .hlt => [.clock]
  | .in_ _ _ => [.regs, .draws]
  | .out _ _ => [.ports, .vram, .lines]
  | .sgr => [.latch, .lines]

/-- A frame of the state that an outcome goes on to. -/
theorem KeptBut.of_next {ps : List Part} {s t u : State} (frame : KeptBut ps s u)
    (next : (.next u : Result) = .next t) : KeptBut ps s t :=
  Host.Outcome.next.inj next ▸ frame

/-- A two-operand ALU instruction that goes on, was not refused. -/
theorem alu2Instr_next {op : Byte → Byte → Byte × Bool} {n : Nat} {rd : Reg} {v : Byte} {rightIsB : Bool} {len : Nat}
    {s t : State} (runs : alu2Instr op n rd v rightIsB len s = .next t) :
    t = ((s.alu2 op rd v).countDraws n).advance len := by
  obtain ⟨-, goes⟩ | ⟨-, -, -, refused⟩ := alu2Instr_cases op n rd v rightIsB len s
  · exact Host.Outcome.next.inj (runs.symm.trans goes)
  · exact nomatch refused.symm.trans runs

/-- A `store` that goes on has put the byte and latched the access. -/
theorem execStore_next {r : Reg} {x : AddrOperand} {s t : State} (runs : execStore r x s = .next t) :
    t = ((s.poke (s.address x) (s.reg r)).latchWrite (s.address x) (s.reg r)).advance 4 := by
  obtain ⟨-, writes⟩ | ⟨-, raises⟩ := execStore_cases r x s
  · exact Host.Outcome.next.inj (runs.symm.trans writes)
  · exact nomatch raises.symm.trans runs

/-- An instruction that goes on keeps every part but those it may change. -/
theorem exec_keptBut {i : Instr} {s t : State} (runs : exec i s = .next t) : KeptBut (partsTouched i) s t := by
  cases i
  case ldi | move => exact ((s.setReg_keptBut _ _).trans (State.advance_keptBut _ 3)).of_next runs
  case adi | sbi | xri | nandi | add | sub | xor | nand | inc | dcr =>
    obtain rfl := alu2Instr_next runs
    exact ((s.alu2_keptBut _ _ _).trans (State.countDraws_keptBut _ _)).trans (State.advance_keptBut _ _)
  case ror | rol | sfr | sfl =>
    exact (((s.alu1_keptBut _ _).trans (State.countDraws_keptBut _ _)).trans (State.advance_keptBut _ 2)).of_next runs
  case rri | rli | sli | sri => exact ((s.alu1i_keptBut _ _ _).trans (State.advance_keptBut _ 3)).of_next runs
  case jmp x => exact (s.setPc_keptBut _).of_next runs
  case jc | jnc | jz | jnz | jm | jp => exact (s.jumpIf_keptBut _ _).of_next runs
  case call => exact ((s.push16_keptBut _).trans (State.setPc_keptBut _ _)).of_next runs
  case rts => exact (s.pop16_keptBut.trans (State.setPc_keptBut _ _)).of_next runs
  case phi | push => exact ((s.pushByte_keptBut _).trans (State.advance_keptBut _ 2)).of_next runs
  case pull =>
    exact ((s.pop16_keptBut.trans (State.setReg_keptBut _ _ _)).trans (State.advance_keptBut _ 2)).of_next runs
  case load =>
    exact (((s.setReg_keptBut _ _).trans (State.latchRead_keptBut _ _ _)).trans (State.advance_keptBut _ 4)).of_next runs
  case store =>
    obtain rfl := execStore_next runs
    exact ((s.poke_keptBut _ _).trans (State.latchWrite_keptBut _ _ _)).trans (State.advance_keptBut _ 4)
  case hlt => exact (s.stopClock_keptBut.trans (State.advance_keptBut _ 1)).of_next runs
  case nop => exact (s.advance_keptBut 1).of_next runs
  case in_ =>
    exact (((s.setReg_keptBut _ _).trans (State.countDraws_keptBut _ 1)).trans (State.advance_keptBut _ 3)).of_next runs
  case out r p =>
    have written := s.setOutp_keptBut p (s.reg r)
    obtain ⟨-, pulses⟩ | ⟨-, quiet⟩ := exec_out_cases r p s
    · exact ((written.trans (State.ackPulse_keptBut _)).trans (State.advance_keptBut _ 3)).of_next
        (pulses.symm.trans runs)
    · exact ((written.trans (State.advance_keptBut _ 3)).mono (by simp [partsTouched])).of_next (quiet.symm.trans runs)
  case sgr => exact (s.sgrPulse_keptBut.trans (State.advance_keptBut _ 1)).of_next runs

/-- Part by part: kept, or one that the instruction may change. -/
theorem kept_or_touched {i : Instr} {s t : State} (runs : exec i s = .next t) (p : Part) :
    p.kept s t ∨ p ∈ partsTouched i :=
  or_iff_not_imp_right.2 (exec_keptBut runs p)

end Sys2Proof.Machine
end

section
/-! PROOFS. The obligations on what each instruction changes of the flags, the `pc` and the other parts, and what a step
leaves in the bus registers (10_state.md R24, R27, R36). -/

namespace Sys2Proof.Machine

/-! ### Parts -/

/-- Settles O52: which instructions may change the part, read off the list. -/
theorem eachPartHasItsOwnInstructions : Obligations.EachPartHasItsOwnInstructions := by
  intro i s t runs
  have kept_or := kept_or_touched runs
  refine ⟨(kept_or .memory).imp_right fun h => ?memory, (kept_or .stack).imp_right fun h => ?stack, ?ports,
    (kept_or .latch).imp_right fun h => ?latch, (kept_or .clock).imp_right fun h => ?clock⟩
  case memory | stack | latch | clock => cases i <;> simp [partsTouched] at h ⊢
  case ports =>
    by_cases out : ∃ r p, i = .out r p
    · exact .inr out
    · have unnamed : .ports ∉ partsTouched i ∧ .vram ∉ partsTouched i := by
        cases i <;> simp [partsTouched] at out ⊢
      exact .inl ⟨exec_keptBut runs .ports unnamed.1, exec_keptBut runs .vram unnamed.2⟩

/-! ### Flags -/

theorem flags_touched_iff (i : Instr) : .flags ∈ partsTouched i ↔ i.setsFlags = true := by
  cases i <;> simp [partsTouched, Instr.setsFlags]

theorem alu2Instr_zeroAndSign {op : Byte → Byte → Byte × Bool} {n : Nat} {rd : Reg} {v : Byte} {rightIsB : Bool}
    {len : Nat} {s t : State} (runs : alu2Instr op n rd v rightIsB len s = .next t) : ZeroAndSignOf (t.reg .a) t := by
  obtain rfl := alu2Instr_next runs
  obtain ⟨-, accumulator, -, -, flags, -⟩ := s.alu2_did op n rd v len
  rwa [accumulator]

theorem alu1Instr_zeroAndSign {op : Byte → Byte × Bool} {rd : Reg} {s t : State}
    (runs : alu1Instr op rd s = .next t) : ZeroAndSignOf (t.reg .a) t := by
  obtain ⟨_, _, goes, -, ⟨-, accumulator, -⟩, flags, -⟩ := alu1Instr_did (Moves := fun _ => True) trivial
  obtain rfl := Host.Outcome.next.inj (goes.symm.trans runs)
  rwa [accumulator]

/-- Settles O53: the two routings that set the flags set them from what they leave in A; the frame of every other
instruction keeps them. -/
theorem fourteenInstructionsSetTheFlags : Obligations.FourteenInstructionsSetTheFlags := by
  refine fun i s t runs => ⟨fun no => ?keeps, fun yes => ?sets⟩
  case keeps => exact exec_keptBut runs .flags (by simp [flags_touched_iff, no])
  case sets =>
    cases i
    case adi | sbi | xri | nandi | add | sub | xor | nand | inc | dcr => exact alu2Instr_zeroAndSign runs
    case ror | rol | sfr | sfl => exact alu1Instr_zeroAndSign runs
    all_goals exact nomatch yes

/-! ### The program counter -/

/-- Where an instruction ends that does not transfer control. -/
theorem exec_pc {i : Instr} {s t : State} (runs : exec i s = .next t) (format : i.format ≠ .a) (rts : i ≠ .rts) :
    t.pc = s.pc + BitVec.ofNat 16 i.length := by
  cases i
  case jmp | jc | jnc | jz | jnz | jm | jp | call => exact absurd rfl format
  case rts => exact absurd rfl rts
  case adi | sbi | xri | nandi | add | sub | xor | nand | inc | dcr =>
    obtain rfl := alu2Instr_next runs
    rfl
  case store =>
    obtain rfl := execStore_next runs
    rfl
  case out r p =>
    obtain ⟨-, goes⟩ | ⟨-, goes⟩ := exec_out_cases r p s
    all_goals
      obtain rfl := Host.Outcome.next.inj (goes.symm.trans runs)
      simp [Instr.length, Format.length, Instr.format, Format.operandBytes]
  all_goals
    obtain rfl := Host.Outcome.next.inj runs
    rfl

/-- Settles O55: adding to the `pc` is adding modulo 65536. -/
theorem pcAdvancesByTheLength : Obligations.PcAdvancesByTheLength := by
  intro i s t runs format rts
  rw [exec_pc runs format rts, BitVec.toNat_add, BitVec.toNat_ofNat, Nat.add_mod_mod]

/-! ### The clock -/

/-- Byte 0 alone selects `hlt`. -/
theorem State.fetchDecode_of_hlt {s : State} (opcode : s.memRead s.pc = 0xff) : s.fetchDecode = .ok .hlt := by
  rw [State.fetchDecode, State.fetch8_zero, opcode, decode_0xff]

/-- No other opcode byte does. -/
theorem State.opcode_of_hlt {s : State} (decodes : s.fetchDecode = .ok .hlt) : s.memRead s.pc = 0xff := by
  have first : [0xff] <+: [s.fetch8 0, s.fetch8 1, s.fetch8 2, s.fetch8 3] := begins_with_encode_of_decode decodes
  simpa [eq_comm] using first

/-- An instruction other than `hlt` keeps the clock. -/
theorem halted_of_exec {i : Instr} {s t : State} (runs : exec i s = .next t) (other : i ≠ .hlt) :
    t.halted = s.halted :=
  exec_keptBut runs .clock (by cases i <;> simp [partsTouched] at other ⊢)

/-- Settles O13: the instruction that runs is `hlt` exactly on the byte 0xff. -/
theorem onlyHltStopsTheClock : Obligations.OnlyHltStopsTheClock := by
  intro s t steps running
  obtain ⟨halted, -⟩ | ⟨-, i, decodes, runs⟩ | ⟨-, e, -, raises⟩ := step_cases s
  · exact nomatch running.symm.trans halted
  · rw [runs] at steps
    by_cases hlt : i = .hlt
    · subst hlt
      obtain rfl := Host.Outcome.next.inj steps
      exact iff_of_true rfl (State.opcode_of_hlt decodes)
    · have clock : t.halted = false := (halted_of_exec steps hlt).trans running
      refine iff_of_false (by simp [clock]) fun opcode => hlt ?_
      exact Except.ok.inj (decodes.symm.trans (State.fetchDecode_of_hlt opcode))
  · exact nomatch raises.symm.trans steps

/-! ### The bus registers -/

/-- The four bytes that a step decodes. -/
theorem State.fetchDecode_eq (s : State) : s.fetchDecode =
    decode (s.memRead s.pc) (s.memRead (s.pc + 1)) (s.memRead (s.pc + 2)) (s.memRead (s.pc + 3)) := by
  rw [State.fetchDecode, State.fetch8_zero]
  rfl

/-- An instruction other than `load` and `store` leaves the bus registers as the fetch left them. -/
theorem busRegs_of_step {s t : State} {i : Instr} (runs : exec i (s.latchFetch i.length) = .next t)
    (unnamed : .busRegs ∉ partsTouched i) : t.ir = s.memRead s.pc ∧
      t.mar = s.pc + BitVec.ofNat 16 (i.length - 1) ∧ t.odr = s.memRead t.mar ∧ t.idr = s.idr := by
  obtain ⟨mar, idr, odr, ir⟩ := exec_keptBut runs .busRegs unnamed
  exact ⟨ir.trans (s.latchFetch_ir _), mar, odr.trans (by rw [mar]; rfl), idr⟩

/-- Settles O14: `load` and `store` latch their own access after the fetch, whose last byte `store` leaves in ODR. -/
theorem busRegistersAfterAStep : Obligations.BusRegistersAfterAStep := by
  intro s t i running decodes steps
  have runs : exec i (s.latchFetch i.length) = .next t :=
    (step_of_fetchDecode running (s.fetchDecode_eq.trans decodes)).symm.trans steps
  cases i
  case load x r =>
    obtain rfl := Host.Outcome.next.inj runs
    exact ⟨s.fetch8_zero, rfl, rfl, rfl⟩
  case store r x =>
    obtain rfl := execStore_next runs
    exact ⟨s.fetch8_zero, rfl, rfl, rfl⟩
  all_goals exact busRegs_of_step runs (by simp [partsTouched])

end Sys2Proof.Machine
end

section
/-! PROOFS. The obligations on what an instruction answers: a next state, a fault or a refusal (R114, R244). -/

namespace Sys2Proof.Machine

/-- When a two-operand ALU instruction is refused. -/
theorem alu2Instr_refused_iff (op : Byte → Byte → Byte × Bool) (n : Nat) (rd : Reg) (v : Byte) (rightIsB : Bool)
    (len : Nat) (s : State) (f : Refusal) : alu2Instr op n rd v rightIsB len s = .refused f ↔
      s.cfg.aluAlias = .refuse ∧ f = .aluDestinationB ∧ rd = .b ∧ rightIsB = false := by
  obtain ⟨runs, goes⟩ | ⟨refuse, rfl, right, refused⟩ := alu2Instr_cases op n rd v rightIsB len s
  · refine iff_of_false (fun h => nomatch goes.symm.trans h) ?_
    rintro ⟨refuse, -, rfl, rfl⟩
    simp [aliasRefused, refuse] at runs
  · rw [refused]
    simp [refuse, right, eq_comm]

/-- Settles O21: the ten two-operand ALU instructions are refused by their routing, and no other instruction is. -/
theorem destinationBIsRefusedOnlyUnderRefuse : Obligations.DestinationBIsRefusedOnlyUnderRefuse := by
  intro i s f
  cases i
  case adi | sbi | xri | nandi | inc | dcr | add | sub | xor | nand =>
    refine (alu2Instr_refused_iff ..).trans ?_
    simp [and_comm]
  case store r x =>
    refine iff_of_false (fun refused => ?_) (by simp)
    obtain ⟨-, writes⟩ | ⟨-, raises⟩ := execStore_cases r x s
    · exact nomatch writes.symm.trans refused
    · exact nomatch raises.symm.trans refused
  all_goals exact iff_of_false (fun refused => nomatch refused) (by simp)

/-- Settles O11: no fault but that of `store`, and no refusal under Sequence. -/
theorem everyInstructionRuns : Obligations.EveryInstructionRuns := by
  intro i s sequence
  cases answer : exec i s with
  | next t => exact .inl ⟨t, rfl⟩
  | fault f =>
    obtain ⟨r, x, rfl, rom, rfl⟩ := store_of_exec_fault answer
    exact .inr ⟨r, x, rfl, rom, rfl⟩
  | refused f =>
    obtain ⟨refuse, -⟩ := (destinationBIsRefusedOnlyUnderRefuse i s f).1 answer
    exact nomatch refuse.symm.trans sequence

end Sys2Proof.Machine
end

section
/-! PROOFS. The obligations on the stack as a whole (10_state.md R31): pushes and pops in turn, and the ring of 256. -/

namespace Sys2Proof.Machine

/-! ### Pops in turn -/

theorem sub_one_sub_ofNat (x : Byte) (j : Nat) : x - 1 - BitVec.ofNat 8 j = x - BitVec.ofNat 8 (j + 1) := by
  rw [BitVec.ofNat_add]
  bv_omega

/-- The values popped are those of the entries from the top down. -/
theorem State.popped_congr {s t : State} {n : Nat} (sp : t.sp = s.sp)
    (entries : ∀ j < n, t.entry (s.sp - BitVec.ofNat 8 j) = s.entry (s.sp - BitVec.ofNat 8 j)) :
    t.popped n = s.popped n := by
  induction n generalizing s t with
  | zero => rfl
  | succ n ih =>
    have top : t.top = s.top := by simpa [State.top, sp] using entries 0 n.succ_pos
    have rest : t.pop16.popped n = s.pop16.popped n := by
      refine ih (congrArg (· - 1) sp) fun j hj => ?_
      rw [State.pop16_entry, State.pop16_entry, State.pop16_sp, sub_one_sub_ofNat]
      exact entries (j + 1) (Nat.succ_lt_succ hj)
    rw [State.popped, State.popped, top, rest]

theorem State.popAll_eq (s : State) (n : Nat) : s.popAll n = { s with sp := s.sp - BitVec.ofNat 8 n } := by
  induction n generalizing s with
  | zero => simp [State.popAll]
  | succ n ih =>
    rw [State.popAll, ih, State.pop16_sp, sub_one_sub_ofNat]
    rfl

/-- 256 pops go once around the ring. -/
theorem State.popAll_256 (s : State) : s.popAll 256 = s := by
  simp [State.popAll_eq]

theorem State.popped_add (s : State) (m n : Nat) : s.popped (m + n) = s.popped m ++ (s.popAll m).popped n := by
  induction m generalizing s with
  | zero => simp [State.popped, State.popAll]
  | succ m ih => rw [Nat.succ_add, State.popped, ih, State.popped, State.popAll, List.cons_append]

@[simp] theorem State.length_popped (s : State) (n : Nat) : (s.popped n).length = n := by
  induction n generalizing s with
  | zero => rfl
  | succ n ih => rw [State.popped, List.length_cons, ih]

/-- A pop more gives the newest value again, once around the ring. -/
theorem State.popped_257 (s : State) : s.popped 257 = s.popped 256 ++ (s.popped 256).take 1 := by
  have once : s.popped 1 = (s.popped 256).take 1 := by
    rw [State.popped_add s 1 255, List.take_left' (s.length_popped 1)]
  rw [State.popped_add s 256 1, State.popAll_256, once]

/-! ### Pushes in turn -/

/-- The last value pushed is the first popped, and below it up to 255 entries are as they were. -/
theorem State.popped_push16 (s : State) (e : Entry) {n : Nat} (room : n ≤ 255) :
    (s.push16 e).popped (n + 1) = e :: s.popped n := by
  have rest : (s.push16 e).pop16.popped n = s.popped n := by
    refine State.popped_congr (s.sp_pop16_push16 e) fun j hj => s.entry_push16_ne e ?_
    bv_omega
  rw [State.popped, State.top_push16, rest]

theorem State.pushAll_concat (s : State) (es : List Entry) (e : Entry) :
    s.pushAll (es ++ [e]) = (s.pushAll es).push16 e := by
  simp [State.pushAll]

theorem State.sp_pushAll (s : State) (es : List Entry) : (s.pushAll es).sp = s.sp + BitVec.ofNat 8 es.length := by
  induction es using List.reverseRecOn with
  | nil => simp [State.pushAll]
  | append_singleton es e ih =>
    rw [State.pushAll_concat, State.push16_sp, ih, List.length_append, BitVec.ofNat_add]
    exact BitVec.add_assoc _ _ _

/-- Up to a ring of values come back, the last one first. -/
theorem State.popped_pushAll (s : State) (es : List Entry) (room : es.length ≤ 256) :
    (s.pushAll es).popped es.length = es.reverse := by
  induction es using List.reverseRecOn with
  | nil => rfl
  | append_singleton es e ih =>
    rw [List.length_append, List.length_singleton] at room ⊢
    rw [State.pushAll_concat, State.popped_push16 _ _ (by omega), ih (by omega), List.reverse_concat]

/-! ### The obligations -/

/-- Settles O36: by induction on the last value pushed; SP goes up and down by the same number. -/
theorem stackIsLastInFirstOut : Obligations.StackIsLastInFirstOut := by
  refine fun s es room => ⟨s.popped_pushAll es room, ?_⟩
  rw [State.popAll_eq, State.sp_pushAll]
  exact BitVec.add_sub_cancel _ _

/-- Settles O37: the oldest value lies below a ring of newer ones, so 256 pops give those, and the next the newest. -/
theorem stackWrapsAfter256Entries : Obligations.StackWrapsAfter256Entries := by
  intro s oldest es ring
  have newer : ((s.push16 oldest).pushAll es).popped 256 = es.reverse := by
    rw [← ring]
    exact (s.push16 oldest).popped_pushAll es ring.le
  calc (s.pushAll (oldest :: es)).popped 257
    _ = ((s.push16 oldest).pushAll es).popped 257 := rfl
    _ = es.reverse ++ es.reverse.take 1 := by rw [State.popped_257, newer]

/-- Settles O32: the `rts` reads the entry that the call pushed, which is the address after it. -/
theorem rtsReturnsFromCall : Obligations.RtsReturnsFromCall := by
  intro x s t t' called hsp hsk
  obtain ⟨_, calls, -, csp, ctop, -⟩ := callPushesTheReturnAddress.2 x s
  obtain rfl := Host.Outcome.next.inj (calls.symm.trans called)
  obtain ⟨u, returns, upc, usp, -⟩ := rtsPopsThePc.2 t'
  refine ⟨u, returns, ?address, ?pointer⟩
  case address => rw [upc, State.top_congr hsp hsk, ctop]
  case pointer => rw [usp, hsp, csp, BitVec.add_sub_cancel]

end Sys2Proof.Machine
end

section
/-! PROOFS. The obligations on words of the spec and on address bytes (30_encoding.md R82, R88). -/

namespace Sys2Proof.Machine

/-- Settles O5: each word is computed by the row of its opcode. -/
theorem specWordsDecode : Obligations.SpecWordsDecode :=
  ⟨rfl, rfl, rfl, rfl, rfl, rfl, rfl, rfl, rfl, rfl, rfl, rfl⟩

/-- Settles O6: the number that two bytes put together stand for, in either order. -/
theorem addressBytesInOrder : Obligations.AddressBytesInOrder :=
  fun x => ⟨toNat_append_bytes x.a2 x.a1, toNat_append_bytes x.a1 x.a2⟩

end Sys2Proof.Machine
end

section
/-! PROOFS. The obligations on what a step runs, and on the order in which `in` and `out` check their operand bytes
(30_encoding.md R90; 60_exceptions.md R245). -/

namespace Sys2Proof.Machine

/-- Settles O7: the fetch latches the opcode byte and the last byte of the instruction. -/
theorem stepRunsTheDecodedInstruction : Obligations.StepRunsTheDecodedInstruction := by
  intro s i running decodes
  refine ⟨s.latchFetch i.length, step_of_fetchDecode running (s.fetchDecode_eq.trans decodes), ?latched⟩
  case latched =>
    rw [State.latchFetch, State.fetch8_zero]
    rfl

/-- Settles O12: a step looks at `halted` first. -/
theorem haltedMachineStays : Obligations.HaltedMachineStays := fun _ => step_of_halted

/-- A running machine whose bytes do not decode stops with the decoder's fault. -/
theorem step_of_fetchDecode_error {s : State} {e : DecodeError} (running : s.halted = false)
    (fails : s.fetchDecode = .error e) : step s = .fault (decodeFault s.pc e) := by
  simp [step, running, fails, raise]

/-- A byte that is the number of some port. -/
theorem exists_eq_port_code {b : Byte} (hb : b = 0x01 ∨ b = 0x02) : ∃ p : Port, b = p.code :=
  hb.elim (fun h => ⟨.p1, h⟩) (fun h => ⟨.p2, h⟩)

/-- Settles O9: the row of each of the two opcodes checks the lower byte first. -/
theorem portInstructionsCheckInOrder : Obligations.PortInstructionsCheckInOrder := by
  intro s running
  have faults {e : DecodeError} (fails : s.fetchDecode = .error e) := step_of_fetchDecode_error running fails
  simp only [State.fetchDecode_eq] at faults
  refine ⟨fun op => ⟨fun ne1 ne2 => faults (e := .invalidPort _) ?inPort,
      fun port high => faults (e := .invalidRegister _ 2) ?inReg⟩,
    fun op => ⟨fun high => faults (e := .invalidRegister _ 1) ?outReg,
      fun low ne1 ne2 => faults (e := .invalidPort _) ?outPort⟩⟩
  case inPort => rw [op, decode_0xb0, withPort_of_ne _ ne1 ne2]
  case inReg =>
    obtain ⟨p, code⟩ := exists_eq_port_code port
    rw [op, decode_0xb0, code, withPort_code, withReg_of_seven_lt _ _ high]
  case outReg => rw [op, decode_0xb1, withReg_of_seven_lt _ _ high]
  case outPort =>
    obtain ⟨r, code⟩ := exists_eq_code_of_le_seven low
    rw [op, decode_0xb1, code, withReg_code, withPort_of_ne _ ne1 ne2]

end Sys2Proof.Machine
end

section
/-! PROOFS. The obligations on XRI and NANDI (47_xri_nandi.md), and on a byte read after it is stored (20_memory.md R63, R64). -/

namespace Sys2Proof.Machine

/-- Settles O19: the routing with the constant as right operand, and LOGIC_CARRY for CF. -/
theorem xriAndNandiCompute : Obligations.XriAndNandiCompute :=
  ⟨shapeVR_of_row (fun _ _ => rfl) decode_0xd0, shapeVR_of_row (fun _ _ => rfl) decode_0xd1,
    fun v _ _ h => ⟨alu2Instr_xorOp_did v 3 (runs_of_immediate h), alu2Instr_nandOp_did v 3 (runs_of_immediate h)⟩⟩

/-- Settles O41: a `store` keeps the parameters, so the address is the same, and it holds the byte. -/
theorem storedByteIsSeenAtOnce : Obligations.StoredByteIsSeenAtOnce := by
  intro r r' x s t stores
  obtain rfl := execStore_next stores
  obtain ⟨u, loads, hreg, -⟩ := loadReadsAByte.2.2 x r'
    (((s.poke (s.address x) (s.reg r)).latchWrite (s.address x) (s.reg r)).advance 4)
  refine ⟨⟨u, loads, ?loaded⟩, fun k reaches => ?fetched⟩
  case loaded => simpa using hreg
  case fetched =>
    rw [State.fetch8, reaches]
    simp

end Sys2Proof.Machine
end

section
/-! PROOFS. The obligations on power-up (70_reset_and_hazards.md R280, R281). -/

namespace Sys2Proof.Machine

/-- Settles O50: power-up lowers both signals and keeps memory. -/
theorem powerUpHasTheInvariant : Obligations.PowerUpHasTheInvariant :=
  ⟨⟨reset_mem_wf, rfl, rfl⟩, fun _ wf => ⟨wf, rfl, rfl⟩⟩

/-- Power-up starts the clock and lowers the signals; the `pc` is no part. -/
theorem State.powerUp_keptBut (init : State) : KeptBut [.clock, .lines] init init.powerUp := by
  intro p hp
  cases p <;> simp_all [Part.kept]

/-- Settles O58: the four values are those of the definition. -/
theorem powerUpStartsAtZero : Obligations.PowerUpStartsAtZero :=
  ⟨fun init => ⟨rfl, rfl, rfl, rfl, init.powerUp_keptBut⟩, rfl, rfl, rfl⟩

end Sys2Proof.Machine
end
